-- ==== Sys2Proof/Word.lean ====
section
/-! DEFINITION. The two widths of the hardware: the byte of a register or memory cell, and the 16-bit address. -/

namespace Sys2Proof

/-- A register or memory cell: 8 bits (`10_state.md` R10, R17). -/
abbrev Byte := BitVec 8

/-- An address, and the width of `ip` and `rp`: 16 bits (`10_state.md` R12, R14; `20_memory.md` R30).
Addition on it wraps modulo 65536 (`00_scope.md` R8). -/
abbrev Word := BitVec 16

end Sys2Proof
end

