-- ==== Sys2Proof/Config.lean ====
section
/-! DEFINITION. The fixed values of `00_scope.md` R5 that the document settles.
The parameters R5 leaves with a default stand where they can be changed as data: `opcodeMap` in Decode.lean
(OPCODE_MAP), `outValid` in Machine/Ops.lean (OUT_VALID), `State.fetch` in Machine/Ops.lean (FETCH_AT_DEV). -/

namespace Sys2Proof.Config

/-- MEM_SIZE: 65536 backing cells, 0x0000..0xFFFF (`10_state.md` R17, decision D3). -/
def memSize : Nat := 65536

/-- DEV_ADDR: the character port (`20_memory.md` R31). -/
def devAddr : Word := 0xFFFF#16

/-- What a memory cell that nothing has written holds: 0x00 (`10_state.md` R22; log 9, 18). -/
def blankByte : Byte := 0x00#8

end Sys2Proof.Config
end

