-- ==== Sys2Proof/Syntax.lean ====
section
/-! DEFINITION. The instructions as data: four registers, sixteen mnemonics, one constructor of Instr per row of
spec/opcode_table.json. A constructor carries exactly the fields the instruction uses (`30_encoding.md` R54);
the fields it ignores (R55) are not part of it. -/

namespace Sys2Proof

/-- The four general registers, one per value of the 2-bit selector (`10_state.md` R10, R11). -/
inductive Reg where
  | r0
  | r1
  | r2
  | r3
deriving DecidableEq, Repr

/-- The sixteen mnemonics of the closed opcode table, in the document's order (`30_encoding.md` R54). -/
inductive Mnemonic where
  | HALT
  | RET
  | SHL
  | SHR
  | ROL
  | ROR
  | NAND
  | AND
  | OR
  | XOR
  | LOAD
  | STOR
  | BREQ
  | BRNE
  | CREQ
  | CRNE
deriving DecidableEq, Repr

/-- The operand-taking class (format L): "every opcode above the bitwise-logic group" (`30_encoding.md` R52). -/
def Mnemonic.takesOperand : Mnemonic → Bool
  | .LOAD | .STOR | .BREQ | .BRNE | .CREQ | .CRNE => true
  | .HALT | .RET | .SHL | .SHR | .ROL | .ROR | .NAND | .AND | .OR | .XOR => false

/-- The bitwise-logic group (`42_logic.md`). -/
def Mnemonic.isLogic : Mnemonic → Bool
  | .NAND | .AND | .OR | .XOR => true
  | .HALT | .RET | .SHL | .SHR | .ROL | .ROR
  | .LOAD | .STOR | .BREQ | .BRNE | .CREQ | .CRNE => false

/-- One decoded instruction. `a` is the register of `reg_a`, `b` that of `reg_b`, `addr` the 16-bit operand. -/
inductive Instr where
  | halt
  | ret
  | shl (a : Reg)
  | shr (a : Reg)
  | rol (a : Reg)
  | ror (a : Reg)
  | nand (a b : Reg)
  | and (a b : Reg)
  | or (a b : Reg)
  | xor (a b : Reg)
  | load (a : Reg) (addr : Word)
  | stor (a : Reg) (addr : Word)
  | breq (a b : Reg) (addr : Word)
  | brne (a b : Reg) (addr : Word)
  | creq (a b : Reg) (addr : Word)
  | crne (a b : Reg) (addr : Word)
deriving DecidableEq, Repr

/-- The table row an instruction belongs to. -/
def Instr.mnemonic : Instr → Mnemonic
  | .halt => .HALT
  | .ret => .RET
  | .shl _ => .SHL
  | .shr _ => .SHR
  | .rol _ => .ROL
  | .ror _ => .ROR
  | .nand _ _ => .NAND
  | .and _ _ => .AND
  | .or _ _ => .OR
  | .xor _ _ => .XOR
  | .load _ _ => .LOAD
  | .stor _ _ => .STOR
  | .breq _ _ _ => .BREQ
  | .brne _ _ _ => .BRNE
  | .creq _ _ _ => .CREQ
  | .crne _ _ _ => .CRNE

/-- The register in the `reg_a` field, for an instruction that uses it. -/
def Instr.regA? : Instr → Option Reg
  | .halt | .ret => none
  | .shl a | .shr a | .rol a | .ror a => some a
  | .nand a _ | .and a _ | .or a _ | .xor a _ => some a
  | .load a _ | .stor a _ => some a
  | .breq a _ _ | .brne a _ _ | .creq a _ _ | .crne a _ _ => some a

/-- The register in the `reg_b` field, for an instruction that uses it. -/
def Instr.regB? : Instr → Option Reg
  | .halt | .ret | .shl _ | .shr _ | .rol _ | .ror _ | .load _ _ | .stor _ _ => none
  | .nand _ b | .and _ b | .or _ b | .xor _ b => some b
  | .breq _ b _ | .brne _ b _ | .creq _ b _ | .crne _ b _ => some b

/-- The 16-bit operand, for an instruction of format L. -/
def Instr.operand? : Instr → Option Word
  | .halt | .ret | .shl _ | .shr _ | .rol _ | .ror _ => none
  | .nand _ _ | .and _ _ | .or _ _ | .xor _ _ => none
  | .load _ addr | .stor _ addr => some addr
  | .breq _ _ addr | .brne _ _ addr | .creq _ _ addr | .crne _ _ addr => some addr

end Sys2Proof
end

