-- ==== Sys2Proof/WellFormed.lean ====
section
/-! DEFINITION. What the types of Syntax.lean do not already guarantee: an opcode map is a bijection that respects
the document's one numeric constraint, an instruction has a number under a map, and a program image fits.
The fields of an instruction need no check: a register is one of four by its type, and every 16-bit operand is legal
(`30_encoding.md` R56). -/

namespace Sys2Proof

/-- OPCODE_MAP (`00_scope.md` R5; `30_encoding.md` R54): the mnemonic at position `n` has opcode `n`. -/
abbrev OpcodeMap := List Mnemonic

/-- R54 (i): a bijection between the sixteen mnemonics and 0..15 (`93_implementation_defined.md` U3: any other map is
refused at configuration time). -/
def OpcodeMap.bijective (m : OpcodeMap) : Bool :=
  m.length == 16 && decide m.Nodup

/-- R54 (ii): every operand-taking opcode is numerically above every opcode of the bitwise-logic group. -/
def OpcodeMap.operandsAboveLogic (m : OpcodeMap) : Bool :=
  m.all fun l => m.all fun o => !(l.isLogic && o.takesOperand) || decide (m.idxOf l < m.idxOf o)

/-- A map the specification allows. -/
def OpcodeMap.wf (m : OpcodeMap) : Bool :=
  m.bijective && m.operandsAboveLogic

/-- An instruction is well formed under a map when the map gives its mnemonic a number. -/
def Instr.wf (m : OpcodeMap) (i : Instr) : Bool :=
  m.contains i.mnemonic

/-- The launch predicate of a program image: "`data.len() <= memory size`" (`20_memory.md` R43;
`93_implementation_defined.md` U13). -/
def imageFits (data : List Byte) : Bool :=
  decide (data.length ≤ Config.memSize)

end Sys2Proof
end

