-- ==== Sys2Proof/Decode.lean ====
section
/-! DEFINITION. The decoder of `30_encoding.md` (R50 to R56), total on every byte list and rejecting by name, and after
it the encoder written from the same table. Both are functions of an opcode map, so that another numbering is a change
of data (R54, decision D1); `opcodeMap` is the specification's default. -/

namespace Sys2Proof

/-- The default OPCODE_MAP: table order, HALT = 0x0 to CRNE = 0xF (`30_encoding.md` R54).
DESIGN CHOICE, unsafe (log 1): the document prints no numbers. -/
def opcodeMap : OpcodeMap :=
  [.HALT, .RET, .SHL, .SHR, .ROL, .ROR, .NAND, .AND, .OR, .XOR, .LOAD, .STOR, .BREQ, .BRNE, .CREQ, .CRNE]

/-- R51: `opcode = b0[7:4]`. -/
def opcodeField (b0 : Byte) : BitVec 4 := b0.extractLsb' 4 4

/-- R51: `reg_a = b0[3:2]`. -/
def regAField (b0 : Byte) : BitVec 2 := b0.extractLsb' 2 2

/-- R51: `reg_b = b0[1:0]`. -/
def regBField (b0 : Byte) : BitVec 2 := b0.extractLsb' 0 2

/-- R51: selector value `n` names register `rn`. -/
def Reg.ofSelector (n : BitVec 2) : Reg :=
  match n.getLsbD 1, n.getLsbD 0 with
  | false, false => .r0
  | false, true => .r1
  | true, false => .r2
  | true, true => .r3

/-- The selector that names a register. -/
def Reg.selector : Reg → BitVec 2
  | .r0 => 0#2
  | .r1 => 1#2
  | .r2 => 2#2
  | .r3 => 3#2

/-- Why a byte list is not an instruction. -/
inductive DecodeError where
  /-- There is no byte to decode. -/
  | noByte
  /-- The operand of a format L instruction is cut off. -/
  | truncated
  /-- The document's DecodeError: the opcode has no row in the map (unreachable with a bijective map, R56). -/
  | unassigned (opcode : BitVec 4)
deriving DecidableEq, Repr

/-- The instruction of a table row with its fields filled in; fields the row does not use are dropped (R55). -/
def Mnemonic.build (m : Mnemonic) (a b : Reg) (addr : Word) : Instr :=
  match m with
  | .HALT => .halt
  | .RET => .ret
  | .SHL => .shl a
  | .SHR => .shr a
  | .ROL => .rol a
  | .ROR => .ror a
  | .NAND => .nand a b
  | .AND => .and a b
  | .OR => .or a b
  | .XOR => .xor a b
  | .LOAD => .load a addr
  | .STOR => .stor a addr
  | .BREQ => .breq a b addr
  | .BRNE => .brne a b addr
  | .CREQ => .creq a b addr
  | .CRNE => .crne a b addr

/-- The table row of a first byte under a map: the high nibble alone decides it (R52). -/
def rowOf (m : OpcodeMap) (b0 : Byte) : Option Mnemonic :=
  m[(opcodeField b0).toNat]?

/-- Steps 2 and 3 of the document's algorithm on a byte list (R51, R52, R53): the instruction and the bytes after it. -/
def decodeWith (m : OpcodeMap) : List Byte → Except DecodeError (Instr × List Byte)
  | [] => .error .noByte
  | b0 :: rest =>
    let a := Reg.ofSelector (regAField b0)
    let b := Reg.ofSelector (regBField b0)
    match rowOf m b0 with
    | none => .error (.unassigned (opcodeField b0))
    | some row =>
      if row.takesOperand then
        match rest with
        | hi :: lo :: rest' => .ok (row.build a b (hi ++ lo), rest')
        | _ => .error .truncated
      else
        .ok (row.build a b 0#16, rest)

/-- The decoder of this hardware. -/
def decode : List Byte → Except DecodeError (Instr × List Byte) :=
  decodeWith opcodeMap

/-- R52: does the first byte announce an operand? -/
def announcesOperand (b0 : Byte) : Bool :=
  match rowOf opcodeMap b0 with
  | some row => row.takesOperand
  | none => false

/-- The length of an instruction in bytes: 1 for format S, 3 for format L (R50). -/
def Instr.length (i : Instr) : Nat :=
  if i.mnemonic.takesOperand then 3 else 1

/-- R51: `b0 = opcode*16 + reg_a*4 + reg_b`. -/
def firstByte (opcode : BitVec 4) (a b : BitVec 2) : Byte :=
  opcode ++ a ++ b

/-- The selector an encoder emits for a field: zero where the instruction ignores the field (R55, decision D10;
DESIGN CHOICE, safe, log 17). -/
def fieldOf : Option Reg → BitVec 2
  | some r => r.selector
  | none => 0#2

/-- R53: the operand's bytes, high byte first. -/
def operandBytes : Option Word → List Byte
  | some addr => [addr.extractLsb' 8 8, addr.extractLsb' 0 8]
  | none => []

/-- The canonical bytes of an instruction that is well formed under the map (R50, R54, R55). -/
def encodeWith (m : OpcodeMap) (i : Instr) : List Byte :=
  firstByte (BitVec.ofNat 4 (m.idxOf i.mnemonic)) (fieldOf i.regA?) (fieldOf i.regB?) :: operandBytes i.operand?

/-- The encoder of this hardware. -/
def encode : Instr → List Byte :=
  encodeWith opcodeMap

/-- The bits of the first byte that an instruction reads: the opcode and the selector fields it uses (R55). -/
def Instr.usedBits (i : Instr) : Byte :=
  match i.regA?, i.regB? with
  | none, _ => 0xF0#8
  | some _, none => 0xFC#8
  | some _, some _ => 0xFF#8

/-- The bytes of a table word: byte `k` is bits `8k+7..8k` of the low `nbits` bits of `w`; the longest instruction has
three. -/
def tableBytes (nbits w : Nat) : List Byte :=
  let v := w % 2 ^ nbits
  [BitVec.ofNat 8 v, BitVec.ofNat 8 (v / 256), BitVec.ofNat 8 (v / 65536)]

/-- The instruction the decoder reads from a word of spec/opcode_table.json. -/
def decodeTableWord (nbits w : Nat) : Option Instr :=
  match decode (tableBytes nbits w) with
  | .ok (i, _) => some i
  | .error _ => none

end Sys2Proof
end

