-- ==== Sys2Proof/Machine/State.lean ====
section
/-! DEFINITION. The complete state of a run (`10_state.md` R21), the reasons a step can stop, and the state after reset
(R22). -/

namespace Sys2Proof.Machine

/-- The backing array (`10_state.md` R17), as the cells that differ from 0x00, addresses strictly rising (log 18). -/
abbrev Memory := List Host.Cell

/-- One event of the input stream `IN` (`10_state.md` R18, decision D8; log 7). -/
inductive InputEvent where
  /-- A printable or control character, by its byte code. -/
  | char (b : Byte)
  | backspace
  | escape
  /-- The "no key" sentinel. -/
  | noKey
  /-- End of input, cancel or interrupt. -/
  | abort
deriving DecidableEq, Repr

/-- The fatal causes of `60_exceptions.md` R101. A fault carries no state, because none is defined after it (R102;
log 5). -/
inductive Fault where
  /-- Raised by the host operation `load` on an image of more than 65536 bytes (R43). Safe: the run never starts. -/
  | loadError
  /-- Raised by `step` on an opcode with no row; unreachable, all sixteen are assigned (R56; log 22). Safe. -/
  | decodeError
  /-- Raised by the register file's defensive accessors on a selector outside 0..3; no instruction can (R11; log 22).
  Safe. -/
  | registerError
  /-- Raised by STOR to 0xFFFF when OUT_VALID is false of the byte; unreachable with the default (R37). Safe as a stop;
  the default that makes it unreachable is unsafe (log 6). -/
  | deviceErrorInvalidOutput
  /-- Raised by LOAD from 0xFFFF when the consumed event is `Abort` (R32, R35). Safe: the document makes it fatal. -/
  | deviceErrorInputAbort
deriving DecidableEq, Repr

/-- Why the model has no meaning for an instruction. Every instruction has one, so nothing raises it. -/
inductive Refusal where
  /-- An arm of exec not written yet; raised by no arm. Safe. -/
  | notModelled (mnemonic : String)
deriving DecidableEq, Repr

/-- `(r[0], r[1], r[2], r[3], ip, rp, halted, mem, IN_rest, OUT)` (`10_state.md` R21). -/
structure State where
  /-- General register 0 (R10). -/
  r0 : Byte
  /-- General register 1 (R10). -/
  r1 : Byte
  /-- General register 2 (R10). -/
  r2 : Byte
  /-- General register 3 (R10). -/
  r3 : Byte
  /-- The instruction pointer: between steps, the address of the next instruction's first byte (R12, R13). -/
  ip : Word
  /-- The return pointer (R14). -/
  rp : Word
  /-- The halted flag (R15). -/
  halted : Bool
  /-- The backing cells (R17). -/
  mem : Memory
  /-- `IN_rest`: the input events delivered and not yet consumed, oldest first (R18). -/
  input : List InputEvent
  /-- `OUT`: the bytes emitted so far, oldest first (R18). -/
  output : List Byte
deriving DecidableEq, Repr

/-- `10_state.md` R22 (decision D13, log 9). `input` is empty here, since `IN` is an input of a run and no state of the
core: a launch supplies it (DESIGN CHOICE, log 10). -/
def State.reset : State where
  r0 := 0x00#8
  r1 := 0x00#8
  r2 := 0x00#8
  r3 := 0x00#8
  ip := 0x0000#16
  rp := 0x0000#16
  halted := false
  mem := []
  input := []
  output := []

end Sys2Proof.Machine
end

