-- ==== Sys2Proof/Machine/Ops.lean ====
section
/-! DEFINITION. The named operations the instructions are made of: the backing array, the register file, `ip` and the
fetch, the device port, the two data accesses, the fatal outcome, and what the host and the environment do. -/

namespace Sys2Proof.Machine

/-- What one operation of the machine answers. -/
abbrev Result := Host.Outcome State Fault Refusal

/-! ### The backing array -/

/-- The canonical form: addresses strictly rising, each below 65536, and no entry that holds what an unlisted cell
reads as (log 18). -/
abbrev Memory.wf (m : Memory) : Prop :=
  m.Pairwise (fun c d => c.1 < d.1) ∧ ∀ c ∈ m, c.1 < Config.memSize ∧ c.2 ≠ Config.blankByte

/-- The byte in a cell; an unlisted cell holds 0x00 (`10_state.md` R22). -/
def Memory.read : Memory → Nat → Byte
  | [], _ => Config.blankByte
  | (k, v) :: m, a =>
    if a < k then Config.blankByte
    else if a = k then v
    else Memory.read m a

/-- Put an entry for `a` in front, unless the byte is what an unlisted cell reads as. -/
def Memory.putFirst (m : Memory) (a : Nat) (v : Byte) : Memory :=
  if v = Config.blankByte then m else (a, v) :: m

/-- Change exactly one cell, keeping the canonical form. -/
def Memory.write : Memory → Nat → Byte → Memory
  | [], a, v => Memory.putFirst [] a v
  | (k, w) :: m, a, v =>
    if a < k then Memory.putFirst ((k, w) :: m) a v
    else if a = k then Memory.putFirst m a v
    else (k, w) :: Memory.write m a v

/-- `mem[a]` (`00_scope.md` R7). -/
def State.cell (s : State) (a : Word) : Byte :=
  s.mem.read a.toNat

/-- `mem[a] <- v`. -/
def State.setCell (s : State) (a : Word) (v : Byte) : State :=
  { s with mem := s.mem.write a.toNat v }

/-! ### The register file -/

/-- `r[i]` (`10_state.md` R10): an ordinary register for every selector, none tied to zero. -/
def State.reg (s : State) : Reg → Byte
  | .r0 => s.r0
  | .r1 => s.r1
  | .r2 => s.r2
  | .r3 => s.r3

/-- `r[i] <- v`. -/
def State.setReg (s : State) (r : Reg) (v : Byte) : State :=
  match r with
  | .r0 => { s with r0 := v }
  | .r1 => { s with r1 := v }
  | .r2 => { s with r2 := v }
  | .r3 => { s with r3 := v }

/-- The register named by a selector of any width: none outside 0..3, never wrapped (`10_state.md` R11). -/
def regOfNat? : Nat → Option Reg
  | 0 => some .r0
  | 1 => some .r1
  | 2 => some .r2
  | 3 => some .r3
  | _ => none

/-- The register file's `get(selector)`, with its defensive error (R11). No instruction can reach the error: a decoded
selector has two bits (log 22). -/
def State.getSelector (s : State) (n : Nat) : Except Fault Byte :=
  match regOfNat? n with
  | some r => .ok (s.reg r)
  | none => .error .registerError

/-- The register file's `set(selector, value)`, with its defensive error (R11; log 22). -/
def State.setSelector (s : State) (n : Nat) (v : Byte) : Except Fault State :=
  match regOfNat? n with
  | some r => .ok (s.setReg r v)
  | none => .error .registerError

/-! ### The control registers and the fetch -/

/-- `ip <- a`, the spec's `pc <- a`. -/
def State.setIp (s : State) (a : Word) : State :=
  { s with ip := a }

/-- `rp <- a`. -/
def State.setRp (s : State) (a : Word) : State :=
  { s with rp := a }

/-- `ip` after `n` fetched bytes, modulo 65536 (`10_state.md` R13; `00_scope.md` R8). -/
def State.advance (s : State) (n : Nat) : State :=
  s.setIp (s.ip + BitVec.ofNat 16 n)

/-- `Fetch(a)`: the backing cell at every address, 0xFFFF included, with no side effect (`20_memory.md` R34).
DESIGN CHOICE, unsafe (FETCH_AT_DEV, decision D4; log 3). -/
def State.fetch (s : State) (a : Word) : Byte :=
  s.cell a

/-- `n` bytes fetched one after another from `a`, the address wrapping (`30_encoding.md` R59). -/
def State.bytesFrom (s : State) (a : Word) : Nat → List Byte
  | 0 => []
  | n + 1 => s.fetch a :: s.bytesFrom (a + 1#16) n

/-- The bytes of the instruction at `ip`: the first byte, and the two operand bytes exactly when it announces them
(`30_encoding.md` R52, R53, R57 steps 1 to 3; `20_memory.md` R41). -/
def State.instrBytes (s : State) : List Byte :=
  if announcesOperand (s.fetch s.ip) then s.bytesFrom s.ip 3 else s.bytesFrom s.ip 1

/-! ### The fatal outcome -/

/-- `raise Fatal(cause)` (`00_scope.md` R7; `60_exceptions.md` R102): the run ends. This is all that stands in the place
of taking an exception: nothing is saved, no mode changes and control goes nowhere (R100, R105), so there is no return
from one either (R106). -/
def raiseFatal (cause : Fault) : Result :=
  .fault cause

/-! ### The device port -/

/-- `InByte(e)` (`20_memory.md` R35): the byte a device read returns; `Abort` has none. -/
def inByte : InputEvent → Option Byte
  | .char b => some b
  | .backspace => some 0x08#8
  | .escape => some 0x1B#8
  | .noKey => some 0x00#8
  | .abort => none

/-- `OUT.emit(b)` (`00_scope.md` R7): one more byte at the end; the sink has no limit (`20_memory.md` R49; log 21). -/
def State.emit (s : State) (b : Byte) : State :=
  { s with output := s.output ++ [b] }

/-- The default OUT_VALID: every byte is a valid character code (`20_memory.md` R37).
DESIGN CHOICE, unsafe (decision D7; log 6). -/
def outValid : Byte → Bool :=
  fun _ => true

/-! ### The two data accesses -/

/-- What a data read answers. -/
inductive ReadResult where
  /-- The byte read, and the state after the read's side effects. -/
  | got (b : Byte) (s : State)
  /-- The device has no event to give: the step that asked does not happen (`20_memory.md` R48). -/
  | waiting
  /-- The run ends (`60_exceptions.md` R102). -/
  | fatal (cause : Fault)
deriving DecidableEq, Repr

/-- The device half of `MemRead` (`20_memory.md` R32, R35, R36): consume one event, echo its byte, return it.
DESIGN CHOICE, unsafe (decision D8; log 7): the echo of `Backspace`, `Escape` and `NoKey` is the byte returned. -/
def State.deviceRead (s : State) : ReadResult :=
  match s.input with
  | [] => .waiting
  | e :: rest =>
    match inByte e with
    | none => .fatal .deviceErrorInputAbort
    | some b => .got b ({ s with input := rest }.emit b)

/-- `MemRead(a, 1)` (`20_memory.md` R32). -/
def State.memRead (s : State) (a : Word) : ReadResult :=
  if a = Config.devAddr then s.deviceRead else .got (s.cell a) s

/-- `MemWrite(a, 1, v)` (`20_memory.md` R33) for any OUT_VALID (R37). -/
def State.memWriteWith (s : State) (valid : Byte → Bool) (a : Word) (v : Byte) : Except Fault State :=
  if a = Config.devAddr then
    if valid v then .ok (s.emit v) else .error .deviceErrorInvalidOutput
  else
    .ok (s.setCell a v)

/-! ### What the host and the environment do between steps -/

/-- Write the bytes of an image from cell `k` up. The cells are distinct, so the order of the writes does not matter;
the last byte goes first. -/
def Memory.loadAt : Nat → List Byte → Memory → Memory
  | _, [], m => m
  | k, b :: bs, m => Memory.write (Memory.loadAt (k + 1) bs m) k b

/-- `load(data)` (`20_memory.md` R43): the backing array from address 0, past the device decoder; no register changes. -/
def State.load (s : State) (data : List Byte) : Result :=
  if imageFits data then .next { s with mem := s.mem.loadAt 0 data } else raiseFatal .loadError

/-- `reset` applied to a core that may have run (`70_reset_and_hazards.md` R120): every piece of core state to its reset
value, the environment's streams untouched (decision D16; log 12). -/
def State.applyReset (s : State) : State :=
  { State.reset with input := s.input, output := s.output }

/-- The environment delivers one more input event (`20_memory.md` R48; log 27). -/
def State.deliver (s : State) (e : InputEvent) : State :=
  { s with input := s.input ++ [e] }

/-- The launch state of a run (`70_reset_and_hazards.md` R121): reset, the run's input, then the image. -/
def launch (image : List Byte) (input : List InputEvent) : Result :=
  { State.reset with input := input }.load image

end Sys2Proof.Machine
end

