-- ==== Sys2Proof/Machine/Operands.lean ====
section
/-! DEFINITION. The operand forms: one register read and written, two registers read and the first written, and the one
addressing mode, absolute (`43_load_store.md` R87). Every form first moves `ip` past the instruction
(`30_encoding.md` R58). -/

namespace Sys2Proof.Machine

/-- `ip` past a format S instruction. -/
def State.pastS (s : State) : State := s.advance 1

/-- `ip` past a format L instruction, its operand consumed. -/
def State.pastL (s : State) : State := s.advance 3

/-- The effective address: the operand itself, absolute and unscaled (`43_load_store.md` R87). -/
def effectiveAddr (addr : Word) : Word := addr

/-- The form `MNEMONIC ra` (format S): `r[a] <- f r[a]`. -/
def updateReg (a : Reg) (f : Byte → Byte) (s : State) : Result :=
  .next (s.pastS.setReg a (f (s.pastS.reg a)))

/-- The form `MNEMONIC ra,rb` (format S): both registers are read before the write, so `a = b` is well defined
(`42_logic.md`). -/
def combineRegs (a b : Reg) (f : Byte → Byte → Byte) (s : State) : Result :=
  .next (s.pastS.setReg a (f (s.pastS.reg a) (s.pastS.reg b)))

end Sys2Proof.Machine
end

