-- ==== Sys2Proof/Machine/Flags.lean ====
section
/-! DEFINITION. The one flag, `halted`, and the one condition, equality of two registers. There is no other flag: no
carry, zero, sign or overflow (`10_state.md` R16). -/

namespace Sys2Proof.Machine

/-- `halted <- true` (`10_state.md` R15). Nothing but reset clears it. -/
def State.setHalted (s : State) : State :=
  { s with halted := true }

/-- `r[a] == r[b]`, all eight bits (`44_branch.md` R92 (4)). -/
def State.regsEqual (s : State) (a b : Reg) : Bool :=
  s.reg a == s.reg b

end Sys2Proof.Machine
end

