-- ==== Sys2Proof/Machine/Branch.lean ====
section
/-! DEFINITION. BREQ and BRNE (`44_branch.md`): absolute target, no delay slot. -/

namespace Sys2Proof.Machine

/-- Go to the target when the condition holds; otherwise stay past the operand (R90, R91, R92). -/
def branchIf (taken : Bool) (addr : Word) (s : State) : Result :=
  .next (if taken then s.pastL.setIp addr else s.pastL)

/-- BREQ ra,rb,addr (R90). -/
def execBreq (a b : Reg) (addr : Word) (s : State) : Result :=
  branchIf (s.pastL.regsEqual a b) addr s

/-- BRNE ra,rb,addr (R91). -/
def execBrne (a b : Reg) (addr : Word) (s : State) : Result :=
  branchIf (!s.pastL.regsEqual a b) addr s

end Sys2Proof.Machine
end

