-- ==== Sys2Proof/Machine/Call.lean ====
section
/-! DEFINITION. CREQ and CRNE (`45_call.md`). The saved return address is the `ip` past the operand (`90_conflicts.md` C2,
decision D18). -/

namespace Sys2Proof.Machine

/-- When the condition holds, save the address of the next instruction in `rp` and go to the target; otherwise leave
`rp` alone and stay past the operand (R95, R96). -/
def callIf (taken : Bool) (addr : Word) (s : State) : Result :=
  .next (if taken then (s.pastL.setRp s.pastL.ip).setIp addr else s.pastL)

/-- CREQ ra,rb,addr (R95). -/
def execCreq (a b : Reg) (addr : Word) (s : State) : Result :=
  callIf (s.pastL.regsEqual a b) addr s

/-- CRNE ra,rb,addr (R96). -/
def execCrne (a b : Reg) (addr : Word) (s : State) : Result :=
  callIf (!s.pastL.regsEqual a b) addr s

end Sys2Proof.Machine
end

