-- ==== Sys2Proof/Machine/HaltRet.lean ====
section
/-! DEFINITION. HALT and RET (`40_halt_ret.md`). -/

namespace Sys2Proof.Machine

/-- HALT (R70). -/
def execHalt (s : State) : Result :=
  .next s.pastS.setHalted

/-- RET (R71): the `ip` the fetch left is overwritten. -/
def execRet (s : State) : Result :=
  .next (s.pastS.setIp s.pastS.rp)

end Sys2Proof.Machine
end

