-- ==== Sys2Proof/Machine/LoadStore.lean ====
section
/-! DEFINITION. LOAD and STOR (`43_load_store.md`), the only two instructions with a data access. -/

namespace Sys2Proof.Machine

/-- LOAD ra,[addr] (R85). With no input for a device read the step does not happen: the state is the one before the
fetch (`20_memory.md` R48). DESIGN CHOICE, safe for what a step does, log 8: the model answers that same state as the
next one. -/
def execLoad (a : Reg) (addr : Word) (s : State) : Result :=
  match s.pastL.memRead (effectiveAddr addr) with
  | .got b t => .next (t.setReg a b)
  | .waiting => .next s
  | .fatal cause => raiseFatal cause

/-- STOR ra,[addr] for any OUT_VALID (R86; `20_memory.md` R37). -/
def storeWith (valid : Byte → Bool) (a : Reg) (addr : Word) (s : State) : Result :=
  match s.pastL.memWriteWith valid (effectiveAddr addr) (s.pastL.reg a) with
  | .ok t => .next t
  | .error cause => raiseFatal cause

/-- STOR ra,[addr] (R86) with the default OUT_VALID (log 6). -/
def execStor (a : Reg) (addr : Word) (s : State) : Result :=
  storeWith outValid a addr s

end Sys2Proof.Machine
end

