-- ==== Sys2Proof/Machine/Logic.lean ====
section
/-! DEFINITION. NAND, AND, OR, XOR (`42_logic.md`): bit by bit over eight bits, by the truth table R88 (log 19). -/

namespace Sys2Proof.Machine

/-- R80: `~(x & y)` over eight bits. -/
def nand8 (x y : Byte) : Byte := ~~~(x &&& y)

/-- R81: `x & y`. -/
def and8 (x y : Byte) : Byte := x &&& y

/-- R82: `x | y`. -/
def or8 (x y : Byte) : Byte := x ||| y

/-- R83: `x ^ y`. -/
def xor8 (x y : Byte) : Byte := x ^^^ y

/-- NAND ra,rb (R80). -/
def execNand (a b : Reg) (s : State) : Result := combineRegs a b nand8 s

/-- AND ra,rb (R81). -/
def execAnd (a b : Reg) (s : State) : Result := combineRegs a b and8 s

/-- OR ra,rb (R82). -/
def execOr (a b : Reg) (s : State) : Result := combineRegs a b or8 s

/-- XOR ra,rb (R83). -/
def execXor (a b : Reg) (s : State) : Result := combineRegs a b xor8 s

end Sys2Proof.Machine
end

