-- ==== Sys2Proof/Machine/ShiftRotate.lean ====
section
/-! DEFINITION. SHL, SHR, ROL, ROR (`41_shift_rotate.md`): one bit, no flag. -/

namespace Sys2Proof.Machine

/-- R75: `v[6:0] ++ 0b0`. -/
def shl1 (v : Byte) : Byte := v.extractLsb' 0 7 ++ 0#1

/-- R76: `0b0 ++ v[7:1]`. -/
def shr1 (v : Byte) : Byte := 0#1 ++ v.extractLsb' 1 7

/-- R77: `v[6:0] ++ v[7]`. -/
def rol1 (v : Byte) : Byte := v.extractLsb' 0 7 ++ v.extractLsb' 7 1

/-- R78: `v[0] ++ v[7:1]` (DEDUCED by the spec from "rotated", log 20). -/
def ror1 (v : Byte) : Byte := v.extractLsb' 0 1 ++ v.extractLsb' 1 7

/-- SHL ra (R75). -/
def execShl (a : Reg) (s : State) : Result := updateReg a shl1 s

/-- SHR ra (R76). -/
def execShr (a : Reg) (s : State) : Result := updateReg a shr1 s

/-- ROL ra (R77). -/
def execRol (a : Reg) (s : State) : Result := updateReg a rol1 s

/-- ROR ra (R78). -/
def execRor (a : Reg) (s : State) : Result := updateReg a ror1 s

end Sys2Proof.Machine
end

