-- ==== Sys2Proof/Machine/Dispatch.lean ====
section
/-! DEFINITION. The dispatch of `30_encoding.md` R57 step 4: one arm per constructor of Instr. `s` is the state before
the fetch, `ip` at the instruction's first byte; each meaning moves `ip` past the instruction itself (log 14). -/

namespace Sys2Proof.Machine

/-- `execute(opcode, a, b, addr)` (`30_encoding.md` R57). -/
def exec (i : Instr) (s : State) : Host.Outcome State Fault Refusal :=
  match i with
  | .halt => Sys2Proof.Machine.execHalt s
  | .ret => Sys2Proof.Machine.execRet s
  | .shl a => Sys2Proof.Machine.execShl a s
  | .shr a => Sys2Proof.Machine.execShr a s
  | .rol a => Sys2Proof.Machine.execRol a s
  | .ror a => Sys2Proof.Machine.execRor a s
  | .nand a b => Sys2Proof.Machine.execNand a b s
  | .and a b => Sys2Proof.Machine.execAnd a b s
  | .or a b => Sys2Proof.Machine.execOr a b s
  | .xor a b => Sys2Proof.Machine.execXor a b s
  | .load a addr => Sys2Proof.Machine.execLoad a addr s
  | .stor a addr => Sys2Proof.Machine.execStor a addr s
  | .breq a b addr => Sys2Proof.Machine.execBreq a b addr s
  | .brne a b addr => Sys2Proof.Machine.execBrne a b addr s
  | .creq a b addr => Sys2Proof.Machine.execCreq a b addr s
  | .crne a b addr => Sys2Proof.Machine.execCrne a b addr s

end Sys2Proof.Machine
end

