-- ==== Sys2Proof/Machine/Step.lean ====
section
/-! DEFINITION. One step of the core (`30_encoding.md` R57), and the placing of an instruction where the next step
fetches it. -/

namespace Sys2Proof.Machine

/-- `step()` (`30_encoding.md` R57): nothing when halted (R64; DESIGN CHOICE, safe, log 4); otherwise fetch, decode,
execute. The three possible outcomes of R57 beside a next state are: no change (halted), not enabled (a device read
with no input: the same state again, log 8), and `Fatal(cause)`. -/
def step (s : State) : Host.Outcome State Fault Refusal :=
  if s.halted then .next s
  else
    match decode s.instrBytes with
    | .ok (i, _) => exec i s
    | .error _ => raiseFatal .decodeError

/-- Write bytes into the backing cells from `a` up, the address wrapping. -/
def State.placeBytes (s : State) (a : Word) : List Byte → State
  | [] => s
  | b :: bs => (s.setCell a b).placeBytes (a + 1#16) bs

/-- The state with a table word stored at `ip`, three bytes, and not halted, so that the next step fetches and runs it
(log 15). -/
def State.withFetchWord (s : State) (nbits w : Nat) : State :=
  { s.placeBytes s.ip (tableBytes nbits w) with halted := false }

end Sys2Proof.Machine
end

