-- ==== Sys2Proof/Machine/Driver.lean ====
section
/-! DEFINITION. The host interface of `70_reset_and_hazards.md` R121, R123, R128: which operation the driver may call
when, what it does, and that a fatal outcome is terminal and leaves no state of the core (`60_exceptions.md` R102). -/

namespace Sys2Proof.Machine

/-- Where a run stands, as far as the driver contract asks (R123, R128; log 11). -/
inductive Phase where
  /-- Constructed or reset; `load` may be called. -/
  | built
  /-- Loaded, or stepped at least once; `load` may not be called again. -/
  | started
deriving DecidableEq, Repr

/-- A core under its driver, or the terminal outcome `Fatal(cause)`, after which only the two streams are defined
(R102; log 5, 24). -/
inductive Session where
  | live (phase : Phase) (core : State)
  | fatal (cause : Fault) (input : List InputEvent) (output : List Byte)
deriving DecidableEq, Repr

/-- What the host and the environment can do (R128). Reading `halted` changes nothing: it is `Session.halted?`. -/
inductive HostOp where
  | reset
  | load (data : List Byte)
  | step
  /-- The environment delivers an input event. -/
  | deliver (e : InputEvent)
deriving DecidableEq, Repr

/-- What is left of the input stream after a fatal step: the `Abort` it consumed is gone, any other cause consumed
nothing (`20_memory.md` R32; DEDUCED, log 24). -/
def leftInput (cause : Fault) (input : List InputEvent) : List InputEvent :=
  match cause with
  | .deviceErrorInputAbort => input.tail
  | .loadError | .decodeError | .registerError | .deviceErrorInvalidOutput => input

/-- The session after an outcome of `load` or `step` on the core `s`. The bytes already emitted stay emitted (R102).
A refusal is no move. -/
def afterOutcome (s : State) : Result → Option Session
  | .next t => some (.live .started t)
  | .fault cause => some (.fatal cause (leftInput cause s.input) s.output)
  | .refused _ => none

/-- One move; `none` is "no move in the model" (R128): a second load, a load after a step, anything but `reset` after a
fatal outcome. A step before any load runs the all-zero memory (R128; log 25). -/
def Session.move : HostOp → Session → Option Session
  | .reset, .live _ s => some (.live .built s.applyReset)
  | .reset, .fatal _ input output => some (.live .built { State.reset with input := input, output := output })
  | .load data, .live .built s => afterOutcome s (s.load data)
  | .load _, .live .started _ => none
  | .load _, .fatal _ _ _ => none
  | .step, .live _ s => afterOutcome s (Sys2Proof.Machine.step s)
  | .step, .fatal _ _ _ => none
  | .deliver e, .live p s => some (.live p (s.deliver e))
  | .deliver _, .fatal _ _ _ => none

/-- The host reads `halted` between steps (R128); after a fatal outcome there is no flag to read. -/
def Session.halted? : Session → Option Bool
  | .live _ s => some s.halted
  | .fatal _ _ _ => none

/-- A run from construction with nothing delivered yet. -/
def Session.start : Session :=
  .live .built State.reset

end Sys2Proof.Machine
end

