-- ==== Sys2Proof/Safety.lean ====
section
/-! DEFINITION. What counts as a safe run, in the terms the claims use: the invariant, the instruction about to run,
the three ways a run stops making progress (`70_reset_and_hazards.md` R124, R130), and the sessions a run can reach. -/

namespace Sys2Proof.Machine

/-- The state invariant: memory is in canonical form. -/
def CanonicalState (s : State) : Prop := s.mem.wf

/-- The instruction the next step runs, if the core is not halted (`30_encoding.md` R57). -/
def State.current? (s : State) : Option Instr :=
  if s.halted then none
  else
    match decode s.instrBytes with
    | .ok (i, _) => some i
    | .error _ => none

/-- The normal end of a run (`70_reset_and_hazards.md` R124). -/
def Ended (s : State) : Prop := s.halted = true

/-- The core waits for input: the step is not enabled (`20_memory.md` R48). -/
def Waiting (s : State) : Prop :=
  (∃ a, s.current? = some (.load a Config.devAddr)) ∧ s.input = []

/-- A step that answers a next state, neither fatal nor refused. In a waiting core that is the same state (log 8), so
this is no claim of progress there. -/
def SafeStep (s : State) : Prop := ∃ t, step s = .next t

/-- Change the next state of an outcome and leave a fault or a refusal alone: for claims that compare two steps. -/
def mapNext (f : State → State) : Result → Result
  | .next s => .next (f s)
  | .fault c => .fault c
  | .refused r => .refused r

/-- The sessions that the driver's and the environment's moves lead to (`70_reset_and_hazards.md` R121, R128). -/
inductive Reachable : Session → Prop where
  | start : Reachable Session.start
  | move {x y : Session} (op : HostOp) : Reachable x → Session.move op x = some y → Reachable y

end Sys2Proof.Machine
end

