-- ==== Sys2Proof/Certificates/Slice0/Obligations.lean ====
section
/-! DEFINITION. The statements for the provers, in the terms of the specification's rules. A statement that rests on a
decision of the specification or of the model says so in its docstring and names the log entry. -/

namespace Sys2Proof.Claims

open Sys2Proof.Machine

/-! ### The words the statements are written in -/

/-- `ip` moved past `n` bytes, modulo 65536 (R8, R13). -/
def IpPast (n : Nat) (s t : State) : Prop := t.ip.toNat = (s.ip.toNat + n) % 65536

/-- Every general register is unchanged. -/
def SameRegs (s t : State) : Prop := ∀ r, t.reg r = s.reg r

/-- Every byte of memory reads as before, the cell behind the port included. -/
def SameCells (s t : State) : Prop := ∀ x : Word, t.cell x = s.cell x

/-- Nothing consumed, nothing emitted. -/
def SameStreams (s t : State) : Prop := t.input = s.input ∧ t.output = s.output

/-- Register `a` got `v`, `ip` moved past `n` bytes, and nothing else changed. -/
def OnlyRegister (a : Reg) (v : Byte) (n : Nat) (s t : State) : Prop :=
  t.reg a = v ∧ (∀ r, r ≠ a → t.reg r = s.reg r) ∧ IpPast n s t ∧ t.rp = s.rp ∧ t.halted = s.halted ∧
    SameCells s t ∧ SameStreams s t

/-- `ip` is `dest`, and nothing else changed. -/
def OnlyIp (dest : Word) (s t : State) : Prop :=
  t.ip = dest ∧ SameRegs s t ∧ t.rp = s.rp ∧ t.halted = s.halted ∧ SameCells s t ∧ SameStreams s t

/-- R51: the first byte with these fields, `opcode*16 + reg_a*4 + reg_b`. -/
def byteOf (op : Nat) (a b : BitVec 2) : Byte := BitVec.ofNat 8 (16 * op + 4 * a.toNat + b.toNat)

/-- Format S (R50): every first byte with this opcode decodes to this instruction and takes no further byte. -/
def ShortForm (op : Nat) (mk : Reg → Reg → Instr) : Prop :=
  ∀ (a b : BitVec 2) (rest : List Byte),
    decode (byteOf op a b :: rest) = .ok (mk (Reg.ofSelector a) (Reg.ofSelector b), rest)

/-- Format L (R50, R53): every first byte with this opcode takes two more bytes, the high one first. -/
def LongForm (op : Nat) (mk : Reg → Reg → Word → Instr) : Prop :=
  ∀ (a b : BitVec 2) (hi lo : Byte) (rest : List Byte),
    decode (byteOf op a b :: hi :: lo :: rest) =
      .ok (mk (Reg.ofSelector a) (Reg.ofSelector b) (BitVec.ofNat 16 (256 * hi.toNat + lo.toNat)), rest)

/-- A two-register logic instruction follows a one-bit truth table at each of the eight positions (R88), writes `r[a]`
only, and moves `ip` past one byte. -/
def FollowsTable (mk : Reg → Reg → Instr) (table : Bool → Bool → Bool) : Prop :=
  ∀ (a b : Reg) (s : State), ∃ t, exec (mk a b) s = .next t ∧
    (∀ k < 8, (t.reg a).getLsbD k = table ((s.reg a).getLsbD k) ((s.reg b).getLsbD k)) ∧
    OnlyRegister a (t.reg a) 1 s t

/-- `k` executions of one instruction, one after another. -/
def execTimes (i : Instr) : Nat → State → Result
  | 0, s => .next s
  | k + 1, s =>
    match exec i s with
    | .next t => execTimes i k t
    | .fault c => .fault c
    | .refused r => .refused r

/-- The general register an instruction writes (R23, column `r[a]`). -/
def writtenReg : Instr → Option Reg
  | .shl a | .shr a | .rol a | .ror a | .nand a _ | .and a _ | .or a _ | .xor a _ | .load a _ => some a
  | .halt | .ret | .stor _ _ | .breq _ _ _ | .brne _ _ _ | .creq _ _ _ | .crne _ _ _ => none

/-- The general registers an instruction reads (R23, columns `r[a]` and `r[b]`). -/
def readRegs : Instr → List Reg
  | .shl a | .shr a | .rol a | .ror a | .stor a _ => [a]
  | .nand a b | .and a b | .or a b | .xor a b => [a, b]
  | .breq a b _ | .brne a b _ | .creq a b _ | .crne a b _ => [a, b]
  | .halt | .ret | .load _ _ => []

/-- The address a store writes, for a store to storage (R23, column `mem`; R33). -/
def storedAddr : Instr → Option Word
  | .stor _ addr => if effectiveAddr addr = Config.devAddr then none else some (effectiveAddr addr)
  | _ => none

/-- Is this a data read of the port (R23, column `IN`)? -/
def readsPort : Instr → Bool
  | .load _ addr => effectiveAddr addr == Config.devAddr
  | _ => false

/-- Is this a data write of the port (R23, column `OUT`)? -/
def writesPort : Instr → Bool
  | .stor _ addr => effectiveAddr addr == Config.devAddr
  | _ => false

/-- The target a conditional transfer goes to in this state, when its condition holds (R90, R91, R95, R96). -/
def takenTarget (s : State) : Instr → Option Word
  | .breq a b addr | .creq a b addr => if s.reg a = s.reg b then some addr else none
  | .brne a b addr | .crne a b addr => if s.reg a = s.reg b then none else some addr
  | _ => none

/-- A taken call (R95, R96). -/
def takenCall (s : State) : Instr → Bool
  | .creq a b _ => s.reg a == s.reg b
  | .crne a b _ => s.reg a != s.reg b
  | _ => false

end Sys2Proof.Claims

open Sys2Proof Sys2Proof.Machine Sys2Proof.Claims

/-! ### Encoding -/

/-- Decode and encode agree for every instruction, every operand and every opcode map without repeats that numbers the
instruction, whatever follows it; the default map is one the specification allows and numbers every instruction.
So the round trip does not rest on the numbering D1 (log 1). -/
def Obligations.DecodingAnEncodedInstructionGivesItBack : Prop :=
  (∀ (m : OpcodeMap) (i : Instr) (rest : List Byte), m.Nodup → m.length ≤ 16 → i.wf m = true →
    decodeWith m (encodeWith m i ++ rest) = .ok (i, rest)) ∧
  opcodeMap.wf = true ∧ (∀ i : Instr, i.wf opcodeMap = true)

/-- R55: encoding what was decoded gives the same bytes but for the fields the instruction ignores, which come out
zero. The zero is the canonical form, decision D10 (log 17). -/
def Obligations.EncodingADecodedInstructionClearsOnlyIgnoredBits : Prop :=
  ∀ (bytes rest : List Byte) (i : Instr), decode bytes = .ok (i, rest) →
    ∃ b0 operand, bytes = b0 :: operand ++ rest ∧ encode i = (b0 &&& i.usedBits) :: operand

/-- R56: every first byte and every operand decode, to an instruction whose format the high nibble tells, and no step
ends in DecodeError. Rests on the numbering of R54, decision D1 (log 1), for where the operand-taking class begins. -/
def Obligations.EveryFirstByteDecodes : Prop :=
  (∀ (b0 b1 b2 : Byte) (rest : List Byte), ∃ i,
    decode (b0 :: b1 :: b2 :: rest) = .ok (i, if 0xA0 ≤ b0.toNat then rest else b1 :: b2 :: rest) ∧
    i.length = (if 0xA0 ≤ b0.toNat then 3 else 1)) ∧
  ∀ s, step s ≠ .fault .decodeError

/-- R52 for every numbering: the row in the high nibble's place decides the length and nothing else does; a row of the
operand-taking class needs its two bytes. -/
def Obligations.OpcodeAloneDecidesLength : Prop :=
  ∀ (m : OpcodeMap) (b0 b1 b2 : Byte) (rest : List Byte) (row : Mnemonic),
    m[b0.toNat / 16]? = some row →
    (row ∈ [Mnemonic.LOAD, .STOR, .BREQ, .BRNE, .CREQ, .CRNE] →
      (∃ i, decodeWith m (b0 :: b1 :: b2 :: rest) = .ok (i, rest) ∧ i.mnemonic = row ∧ i.length = 3) ∧
      decodeWith m [b0] = .error .truncated ∧ decodeWith m [b0, b1] = .error .truncated) ∧
    (row ∉ [Mnemonic.LOAD, .STOR, .BREQ, .BRNE, .CREQ, .CRNE] →
      ∃ i, decodeWith m (b0 :: rest) = .ok (i, rest) ∧ i.mnemonic = row ∧ i.length = 1)

/-- R53, R39: the operand is the two bytes after the first, fetched at `ip+1` and `ip+2` modulo 65536, the one at the
lower address high. -/
def Obligations.OperandIsFetchedBigEndian : Prop :=
  ∀ (s : State), announcesOperand (s.cell s.ip) = true →
    ∃ i, decode s.instrBytes = .ok (i, []) ∧ i.length = 3 ∧
      i.operand? = some (BitVec.ofNat 16
        (256 * (s.cell (BitVec.ofNat 16 ((s.ip.toNat + 1) % 65536))).toNat
          + (s.cell (BitVec.ofNat 16 ((s.ip.toNat + 2) % 65536))).toNat))

/-- R54: the sixteen rows in table order. The numbers are decision D1 (log 1), the specification's own. -/
def Obligations.OpcodesAreNumberedInTableOrder : Prop :=
  ShortForm 0x0 (fun _ _ => .halt) ∧ ShortForm 0x1 (fun _ _ => .ret) ∧
  ShortForm 0x2 (fun a _ => .shl a) ∧ ShortForm 0x3 (fun a _ => .shr a) ∧
  ShortForm 0x4 (fun a _ => .rol a) ∧ ShortForm 0x5 (fun a _ => .ror a) ∧
  ShortForm 0x6 .nand ∧ ShortForm 0x7 .and ∧ ShortForm 0x8 .or ∧ ShortForm 0x9 .xor ∧
  LongForm 0xA (fun a _ addr => .load a addr) ∧ LongForm 0xB (fun a _ addr => .stor a addr) ∧
  LongForm 0xC .breq ∧ LongForm 0xD .brne ∧ LongForm 0xE .creq ∧ LongForm 0xF .crne

/-- R51: the three fields are the three groups of bits, every first byte is `opcode*16 + reg_a*4 + reg_b`, and selector
`n` names register `rn`. -/
def Obligations.FirstByteIsThreeFields : Prop :=
  (∀ b0 : Byte, (opcodeField b0).toNat = b0.toNat / 16 ∧ (regAField b0).toNat = b0.toNat / 4 % 4 ∧
    (regBField b0).toNat = b0.toNat % 4 ∧
    b0.toNat = (opcodeField b0).toNat * 16 + (regAField b0).toNat * 4 + (regBField b0).toNat) ∧
  Reg.ofSelector 0#2 = .r0 ∧ Reg.ofSelector 1#2 = .r1 ∧ Reg.ofSelector 2#2 = .r2 ∧ Reg.ofSelector 3#2 = .r3

/-- Words written out from R61 and `95_test_vectors.md` V-ENC (numbering D1, log 1). -/
def Obligations.SampleWordsDecode : Prop :=
  decode [0x24#8] = .ok (.shl .r1, []) ∧ decode [0x9B#8] = .ok (.xor .r2 .r3, []) ∧
  decode [0xA0#8, 0x00#8, 0x05#8] = .ok (.load .r0 0x0005#16, []) ∧
  decode [0xB0#8, 0xFF#8, 0xFF#8] = .ok (.stor .r0 0xFFFF#16, []) ∧
  decode [0xD1#8, 0x00#8, 0x06#8] = .ok (.brne .r0 .r1 0x0006#16, []) ∧
  decode [0x0F#8] = .ok (.halt, []) ∧ decode [0x1C#8] = .ok (.ret, []) ∧
  decode [0xAF#8, 0x12#8, 0x34#8] = .ok (.load .r3 0x1234#16, [])

/-! ### The register file and memory -/

/-- R10, R11: each selector names its own register, a write is read back and leaves the other three alone, and the
defensive error is raised exactly outside 0..3. -/
def Obligations.RegisterFileReadsBackWrites : Prop :=
  (∀ (s : State) (n q : Nat) (v : Byte), n < 4 → q < 4 → ∃ t, s.setSelector n v = .ok t ∧
    t.getSelector q = (if q = n then .ok v else s.getSelector q)) ∧
  (∀ (s : State) (n : Nat) (v : Byte), 4 ≤ n →
    s.getSelector n = .error .registerError ∧ s.setSelector n v = .error .registerError) ∧
  (∀ (s : State) (n : BitVec 2), s.getSelector n.toNat = .ok (s.reg (Reg.ofSelector n)))

/-- Canonical memories that read the same everywhere are the same list, so that equal memories are equal data (log 18).
-/
def Obligations.CanonicalMemoriesAreExtensional : Prop :=
  ∀ m n : Memory, m.wf → n.wf → (∀ x : Word, m.read x.toNat = n.read x.toNat) → m = n

/-! ### The step -/

/-- R57: a step of a core that is not halted runs the instruction its bytes decode to, whatever follows them; the
meaning starts from the state before the fetch and moves `ip` past the instruction itself (log 14). -/
def Obligations.StepRunsTheDecodedInstruction : Prop :=
  ∀ (s : State) (i : Instr) (n : Nat) (rest : List Byte), s.halted = false →
    decode (s.bytesFrom s.ip n) = .ok (i, rest) → step s = exec i s

/-- R64: a step while halted changes nothing (the no-op of decision D5, log 4), and `halted` is never cleared by a step.
-/
def Obligations.HaltedCoreStaysAsItIs : Prop :=
  ∀ s, s.halted = true → step s = .next s

/-- R58: where `ip` is after an instruction that happened (a device read with no input has not, R48): past its bytes,
modulo 65536, unless the instruction redirects it to `rp` (RET) or to its taken target; and that same address past its
bytes is what a taken call saves in `rp`. -/
def Obligations.NextInstructionPointer : Prop :=
  ∀ (i : Instr) (s t : State), ¬(readsPort i = true ∧ s.input = []) → exec i s = .next t →
    (i = .ret → t.ip = s.rp) ∧
    (i ≠ .ret → (∀ addr, takenTarget s i = some addr → t.ip = addr) ∧
      (takenTarget s i = none → IpPast i.length s t)) ∧
    (takenCall s i = true → t.rp.toNat = (s.ip.toNat + i.length) % 65536)

/-- R59: an instruction that starts at the top of memory continues at 0x0000. A fetch at 0xFFFF reads the backing cell
(decision D4, log 3). -/
def Obligations.InstructionBytesWrapAtTheTop : Prop :=
  ∀ s : State,
    (s.ip = 0xFFFE#16 → announcesOperand (s.cell 0xFFFE#16) = true →
      s.instrBytes = [s.cell 0xFFFE#16, s.cell 0xFFFF#16, s.cell 0x0000#16]) ∧
    (s.ip = 0xFFFF#16 → announcesOperand (s.cell 0xFFFF#16) = true →
      s.instrBytes = [s.cell 0xFFFF#16, s.cell 0x0000#16, s.cell 0x0001#16]) ∧
    (s.ip = 0xFFFF#16 → announcesOperand (s.cell 0xFFFF#16) = false → s.instrBytes = [s.cell 0xFFFF#16])

/-! ### HALT and RET -/

/-- R70: HALT sets `halted`, moves `ip` past one byte, and changes nothing else; every low nibble is HALT. The opcode
number is decision D1 (log 1). -/
def Obligations.HaltSetsTheFlagOnly : Prop :=
  ShortForm 0x0 (fun _ _ => .halt) ∧
  ∀ s, ∃ t, exec .halt s = .next t ∧ t.halted = true ∧ IpPast 1 s t ∧ SameRegs s t ∧ t.rp = s.rp ∧
    SameCells s t ∧ SameStreams s t

/-- R71: RET goes to `rp` unconditionally and does not modify `rp` or anything else. Opcode number: D1 (log 1). -/
def Obligations.RetGoesToRpAndKeepsIt : Prop :=
  ShortForm 0x1 (fun _ _ => .ret) ∧ ∀ s, ∃ t, exec .ret s = .next t ∧ OnlyIp s.rp s t

/-! ### Shifts and rotates -/

/-- R75: SHL is multiplication by two modulo 256; only `ra` changes. Opcode number: D1 (log 1). -/
def Obligations.ShlDoublesModulo256 : Prop :=
  ShortForm 0x2 (fun a _ => .shl a) ∧
  ∀ (a : Reg) (s : State), ∃ t, exec (.shl a) s = .next t ∧
    OnlyRegister a (BitVec.ofNat 8 (2 * (s.reg a).toNat % 256)) 1 s t

/-- R76: SHR is the unsigned half rounded down; only `ra` changes. Opcode number: D1 (log 1). -/
def Obligations.ShrHalvesUnsigned : Prop :=
  ShortForm 0x3 (fun a _ => .shr a) ∧
  ∀ (a : Reg) (s : State), ∃ t, exec (.shr a) s = .next t ∧
    OnlyRegister a (BitVec.ofNat 8 ((s.reg a).toNat / 2)) 1 s t

/-- R77: ROL moves bit `k` to bit `k+1` and bit 7 to bit 0; only `ra` changes. Opcode number: D1 (log 1). -/
def Obligations.RolMovesEachBitUp : Prop :=
  ShortForm 0x4 (fun a _ => .rol a) ∧
  ∀ (a : Reg) (s : State), ∃ t, exec (.rol a) s = .next t ∧
    (∀ k < 8, (t.reg a).getLsbD ((k + 1) % 8) = (s.reg a).getLsbD k) ∧ OnlyRegister a (t.reg a) 1 s t

/-- R78: ROR moves bit `k+1` to bit `k` and bit 0 to bit 7 (the wrap is the specification's derivation, log 20); only
`ra` changes. Opcode number: D1 (log 1). -/
def Obligations.RorMovesEachBitDown : Prop :=
  ShortForm 0x5 (fun a _ => .ror a) ∧
  ∀ (a : Reg) (s : State), ∃ t, exec (.ror a) s = .next t ∧
    (∀ k < 8, (t.reg a).getLsbD k = (s.reg a).getLsbD ((k + 1) % 8)) ∧ OnlyRegister a (t.reg a) 1 s t

/-- R79: `k` rotates do to the register what `k mod 8` do, eight restore it, and ROL and ROR undo each other. -/
def Obligations.RotatesHavePeriodEight : Prop :=
  (∀ (i : Instr) (a : Reg) (s : State) (k : Nat), (i = .rol a ∨ i = .ror a) → ∃ t u,
    execTimes i k s = .next t ∧ execTimes i (k % 8) s = .next u ∧ t.reg a = u.reg a ∧
    (k % 8 = 0 → t.reg a = s.reg a)) ∧
  (∀ (i j : Instr) (a : Reg) (s : State), (i = .rol a ∧ j = .ror a) ∨ (i = .ror a ∧ j = .rol a) →
    ∃ t u, exec i s = .next t ∧ exec j t = .next u ∧ u.reg a = s.reg a)

/-- R79: eight or more shifts give 0x00 from every value, and 0x00 is the only value a shift keeps, so SHL and SHR do
not have period 8 (`90_conflicts.md` C3). -/
def Obligations.EightShiftsGiveZero : Prop :=
  (∀ (i : Instr) (a : Reg) (s : State) (k : Nat), (i = .shl a ∨ i = .shr a) → 8 ≤ k →
    ∃ t, execTimes i k s = .next t ∧ t.reg a = 0x00#8) ∧
  (∀ (i : Instr) (a : Reg) (s : State), (i = .shl a ∨ i = .shr a) →
    ∃ t, exec i s = .next t ∧ (t.reg a = s.reg a ↔ s.reg a = 0x00#8))

/-! ### Logic -/

/-- R80, R88: NAND by its truth table. Opcode number: D1 (log 1); the table is general knowledge the specification
supplies (log 19). -/
def Obligations.NandFollowsItsTruthTable : Prop :=
  ShortForm 0x6 .nand ∧ FollowsTable .nand
    (fun x y => match x, y with
      | false, false => true
      | false, true => true
      | true, false => true
      | true, true => false)

/-- R81, R88: AND by its truth table. Opcode number: D1 (log 1); table: log 19. -/
def Obligations.AndFollowsItsTruthTable : Prop :=
  ShortForm 0x7 .and ∧ FollowsTable .and
    (fun x y => match x, y with
      | false, false => false
      | false, true => false
      | true, false => false
      | true, true => true)

/-- R82, R88: OR by its truth table. Opcode number: D1 (log 1); table: log 19. -/
def Obligations.OrFollowsItsTruthTable : Prop :=
  ShortForm 0x8 .or ∧ FollowsTable .or
    (fun x y => match x, y with
      | false, false => false
      | false, true => true
      | true, false => true
      | true, true => true)

/-- R83, R88: XOR by its truth table. Opcode number: D1 (log 1); table: log 19. -/
def Obligations.XorFollowsItsTruthTable : Prop :=
  ShortForm 0x9 .xor ∧ FollowsTable .xor
    (fun x y => match x, y with
      | false, false => false
      | false, true => true
      | true, false => true
      | true, true => false)

/-- R84 (3): with one register twice, NAND is NOT, AND and OR keep the register, XOR clears it. -/
def Obligations.LogicOnOneRegisterTwice : Prop :=
  ∀ (a : Reg) (s : State),
    (∃ t, exec (.nand a a) s = .next t ∧ (t.reg a).toNat = 255 - (s.reg a).toNat) ∧
    (∃ t, exec (.and a a) s = .next t ∧ OnlyRegister a (s.reg a) 1 s t) ∧
    (∃ t, exec (.or a a) s = .next t ∧ OnlyRegister a (s.reg a) 1 s t) ∧
    (∃ t, exec (.xor a a) s = .next t ∧ t.reg a = 0x00#8)

/-! ### LOAD and STOR -/

/-- R35: the byte of each input event; `Abort` has none. The alphabet is decision D8 (log 7). -/
def Obligations.InputEventBytes : Prop :=
  (∀ b, inByte (.char b) = some b) ∧ inByte .backspace = some 0x08#8 ∧ inByte .escape = some 0x1B#8 ∧
  inByte .noKey = some 0x00#8 ∧ inByte .abort = none

/-- R85, R32: a LOAD from storage completes, copies the cell, and has no side effect. Opcode number: D1 (log 1). -/
def Obligations.LoadFromStorageCopiesTheCell : Prop :=
  LongForm 0xA (fun a _ addr => .load a addr) ∧
  ∀ (a : Reg) (addr : Word) (s : State), addr ≠ 0xFFFF#16 →
    ∃ t, exec (.load a addr) s = .next t ∧ OnlyRegister a (s.cell addr) 3 s t

/-- R85, R32, R35, R36: a LOAD from the port with an event that has a byte completes: it consumes that one event, echoes
its byte, writes it to `ra`, and never looks at `mem[0xFFFF]`. The echo of the three special events is decision D8
(log 7). -/
def Obligations.LoadFromThePortConsumesAndEchoes : Prop :=
  ∀ (a : Reg) (s : State) (e : InputEvent) (b : Byte) (rest : List InputEvent),
    s.input = e :: rest → inByte e = some b →
    ∃ t, exec (.load a 0xFFFF#16) s = .next t ∧ t.reg a = b ∧ (∀ r, r ≠ a → t.reg r = s.reg r) ∧
      t.input = rest ∧ t.output = s.output ++ [b] ∧ IpPast 3 s t ∧ t.rp = s.rp ∧ t.halted = s.halted ∧
      SameCells s t

/-- R32, R101: a LOAD from the port that consumes `Abort` is fatal. -/
def Obligations.LoadOfAbortIsFatal : Prop :=
  ∀ (a : Reg) (s : State) (rest : List InputEvent), s.input = .abort :: rest →
    exec (.load a 0xFFFF#16) s = .fault .deviceErrorInputAbort

/-- R48, R32, R36: with no input the step that reads the port does not happen (the same state again is the model's form
of it, log 8); when the environment delivers an event with a byte, the next step completes the read, echoes the byte and
leaves no input. The alphabet and the echo of the three special events are decision D8 (log 7); the delivery between
steps is the model's (log 27). -/
def Obligations.BlockedReadResumesWhenInputArrives : Prop :=
  ∀ (s : State) (a : Reg), Waiting s → s.current? = some (.load a 0xFFFF#16) →
    step s = .next s ∧
    (∀ e b, inByte e = some b → ∃ t, step (s.deliver e) = .next t ∧ t.reg a = b ∧ t.input = [] ∧
      t.output = s.output ++ [b] ∧ IpPast 3 s t) ∧
    step (s.deliver .abort) = .fault .deviceErrorInputAbort

/-- R33, for every OUT_VALID: a store to storage changes exactly that cell and emits nothing; a store to the port emits
the byte and changes no cell, or is fatal exactly when the byte is not valid. -/
def Obligations.DataWriteGoesToOneCellOrThePort : Prop :=
  ∀ (valid : Byte → Bool) (a : Reg) (addr : Word) (s : State), s.mem.wf →
    (addr ≠ 0xFFFF#16 → ∃ t, storeWith valid a addr s = .next t ∧ t.cell addr = s.reg a ∧
      (∀ x, x ≠ addr → t.cell x = s.cell x) ∧ SameStreams s t) ∧
    (addr = 0xFFFF#16 → valid (s.reg a) = true → ∃ t, storeWith valid a addr s = .next t ∧
      t.output = s.output ++ [s.reg a] ∧ t.input = s.input ∧ SameCells s t) ∧
    (addr = 0xFFFF#16 → valid (s.reg a) = false →
      storeWith valid a addr s = .fault .deviceErrorInvalidOutput)

/-- R86: STOR completes for every address; the stored bytes are the one at `effectiveAddr addr` unless that is the port,
and no register, no `rp` and no flag changes. That it always completes at the port is the default OUT_VALID, decision
D7 (log 6). Opcode number: D1 (log 1). -/
def Obligations.StorWritesTheCellOrEmits : Prop :=
  LongForm 0xB (fun a _ addr => .stor a addr) ∧
  ∀ (a : Reg) (addr : Word) (s : State), s.mem.wf →
    ∃ t, exec (.stor a addr) s = .next t ∧ IpPast 3 s t ∧ SameRegs s t ∧ t.rp = s.rp ∧ t.halted = s.halted ∧
      t.input = s.input ∧
      (effectiveAddr addr ≠ 0xFFFF#16 → t.cell (effectiveAddr addr) = s.reg a ∧ t.output = s.output) ∧
      (effectiveAddr addr = 0xFFFF#16 → t.output = s.output ++ [s.reg a] ∧ t.cell 0xFFFF#16 = s.cell 0xFFFF#16) ∧
      (∀ x, x ≠ effectiveAddr addr → t.cell x = s.cell x)

/-- R46: after a store to storage every fetch sees the new byte, with nothing in between; the bytes fetched from any
address are the old ones with the stored byte in its place. -/
def Obligations.StoredByteIsWhatTheNextFetchReads : Prop :=
  ∀ (a : Reg) (addr : Word) (s t : State), s.mem.wf → addr ≠ 0xFFFF#16 → exec (.stor a addr) s = .next t →
    ∀ (p : Word) (n : Nat), t.bytesFrom p n = (List.range n).map fun k =>
      if p + BitVec.ofNat 16 k = addr then s.reg a else s.cell (p + BitVec.ofNat 16 k)

/-! ### Branches and calls -/

/-- R90: BREQ goes to its target exactly when the registers are equal, else past the operand; nothing else changes.
Opcode number: D1 (log 1). -/
def Obligations.BreqRedirectsExactlyWhenEqual : Prop :=
  LongForm 0xC .breq ∧
  ∀ (a b : Reg) (addr : Word) (s : State), ∃ t, exec (.breq a b addr) s = .next t ∧
    OnlyIp (if s.reg a = s.reg b then addr else BitVec.ofNat 16 ((s.ip.toNat + 3) % 65536)) s t

/-- R91: BRNE goes to its target exactly when the registers differ, else past the operand; nothing else changes.
Opcode number: D1 (log 1). -/
def Obligations.BrneRedirectsExactlyWhenDifferent : Prop :=
  LongForm 0xD .brne ∧
  ∀ (a b : Reg) (addr : Word) (s : State), ∃ t, exec (.brne a b addr) s = .next t ∧
    OnlyIp (if s.reg a = s.reg b then BitVec.ofNat 16 ((s.ip.toNat + 3) % 65536) else addr) s t

/-- R95: CREQ, when the registers are equal, saves the address of the next instruction in `rp` and goes to its target;
otherwise it only moves past the operand. The saved address is the post-operand one, `90_conflicts.md` C2. Opcode
number: D1 (log 1). -/
def Obligations.CreqCallsExactlyWhenEqual : Prop :=
  LongForm 0xE .creq ∧
  ∀ (a b : Reg) (addr : Word) (s : State), ∃ t, exec (.creq a b addr) s = .next t ∧
    (s.reg a = s.reg b → t.ip = addr ∧ t.rp.toNat = (s.ip.toNat + 3) % 65536) ∧
    (s.reg a ≠ s.reg b → IpPast 3 s t ∧ t.rp = s.rp) ∧
    SameRegs s t ∧ t.halted = s.halted ∧ SameCells s t ∧ SameStreams s t

/-- R96: CRNE, when the registers differ, saves the address of the next instruction in `rp` and goes to its target;
otherwise it only moves past the operand. The saved address is the post-operand one, `90_conflicts.md` C2. Opcode
number: D1 (log 1). -/
def Obligations.CrneCallsExactlyWhenDifferent : Prop :=
  LongForm 0xF .crne ∧
  ∀ (a b : Reg) (addr : Word) (s : State), ∃ t, exec (.crne a b addr) s = .next t ∧
    (s.reg a ≠ s.reg b → t.ip = addr ∧ t.rp.toNat = (s.ip.toNat + 3) % 65536) ∧
    (s.reg a = s.reg b → IpPast 3 s t ∧ t.rp = s.rp) ∧
    SameRegs s t ∧ t.halted = s.halted ∧ SameCells s t ∧ SameStreams s t

/-- R97: a taken call, then RET from anywhere with `rp` untouched, goes to the instruction after the call. -/
def Obligations.RetAfterACallGoesPastTheCall : Prop :=
  ∀ (i : Instr) (s t u : State), takenCall s i = true → exec i s = .next t → u.rp = t.rp →
    ∃ v, exec .ret u = .next v ∧ IpPast 3 s v

/-! ### Rules about every instruction -/

/-- R24: an instruction changes no state but what the access matrix R23 lists for it, beside `ip`: its register, `rp`
for a taken call, `halted` for HALT, the one stored cell, the input for a read of the port, the output for an access of
the port. The `ip` advance is by the instruction's length, 1 without an operand and 3 with one, before a redirection
(RET's own effect overwrites it, `90_conflicts.md` C4; a device read with no input has not happened, R48). -/
def Obligations.EveryInstructionKeepsToItsFrame : Prop :=
  ∀ (i : Instr) (s t : State), s.mem.wf → exec i s = .next t →
    (∀ r, writtenReg i ≠ some r → t.reg r = s.reg r) ∧
    (takenCall s i = false → t.rp = s.rp) ∧
    (i ≠ .halt → t.halted = s.halted) ∧
    (∀ x, storedAddr i ≠ some x → t.cell x = s.cell x) ∧
    (readsPort i = false → t.input = s.input) ∧
    (readsPort i = false → writesPort i = false → t.output = s.output) ∧
    i.length = (if i.operand?.isSome then 3 else 1) ∧
    (¬(readsPort i = true ∧ s.input = []) → i ≠ .ret → takenTarget s i = none → IpPast i.length s t)

/-- R23, the columns that are read: a register an instruction does not read has no influence on it. Running with another
value there gives the same outcome with that value there, or exactly the same outcome when the instruction writes that
register and completes. -/
def Obligations.UnreadRegistersHaveNoInfluence : Prop :=
  ∀ (i : Instr) (s : State) (r : Reg) (v : Byte), r ∉ readRegs i →
    (writtenReg i ≠ some r → exec i (s.setReg r v) = mapNext (·.setReg r v) (exec i s)) ∧
    (writtenReg i = some r → ¬(readsPort i = true ∧ s.input = []) → exec i (s.setReg r v) = exec i s)

/-- R14: RET copies `rp` to `ip` and does not modify it; a step changes `rp` only by a taken CREQ or CRNE, which put the address past the call there and go to the
target; and no instruction but RET depends on `rp`: with another `rp` it does the same and leaves that `rp`, a taken
call overwriting it. -/
def Obligations.RpIsWrittenByTakenCallsAndReadByRet : Prop :=
  (∀ s t : State, step s = .next t → t.rp ≠ s.rp →
    ∃ i, s.current? = some i ∧ takenCall s i = true ∧ t.rp.toNat = (s.ip.toNat + 3) % 65536 ∧
      i.operand? = some t.ip) ∧
  (∀ (i : Instr) (s : State) (v : Word), i ≠ .ret →
    exec i (s.setRp v) = if takenCall s i then exec i s else mapNext (·.setRp v) (exec i s)) ∧
  (∀ s : State, ∃ t, exec .ret s = .next t ∧ t.ip = s.rp ∧ t.rp = s.rp)

/-- R15, R124: after a step the run has ended exactly when it had ended before or the step ran HALT; so only HALT sets
`halted` and no step clears it (with the no-op of R64, log 4). -/
def Obligations.RunEndsExactlyByHalt : Prop :=
  ∀ s t : State, step s = .next t → (Ended t ↔ Ended s ∨ s.current? = some .halt)

/-- R38, R86 (4): a step that changes a cell is a STOR to storage, and changes only the cell its operand names; no step
changes `mem[0xFFFF]`; a step that consumes or emits leaves every cell alone. -/
def Obligations.PortAndStorageAreIsolated : Prop :=
  ∀ s t : State, s.mem.wf → step s = .next t →
    (∀ x, t.cell x ≠ s.cell x → x ≠ 0xFFFF#16 ∧ ∃ a, s.current? = some (.stor a x)) ∧
    (t.input ≠ s.input ∨ t.output ≠ s.output →
      SameCells s t ∧ ∃ a, s.current? = some (.load a 0xFFFF#16) ∨ s.current? = some (.stor a 0xFFFF#16))

/-- R41, R44 (4): a step emits at most one byte, at the end of `OUT`, and consumes at most one event, the first. -/
def Obligations.StepEmitsAndConsumesAtMostOne : Prop :=
  ∀ s t : State, step s = .next t →
    (t.output = s.output ∨ ∃ b, t.output = s.output ++ [b]) ∧
    (t.input = s.input ∨ ∃ e, s.input = e :: t.input)

/-- R101, R104: a step is fatal exactly when it is a LOAD from the port that consumes `Abort`, and then with that cause;
every other step answers a next state, so none is refused. In a waiting core, where R48 and R57 say that the step is not
enabled, that next state is the same state, the model's form of it (log 8). That no STOR is fatal is the default
OUT_VALID, decision D7 (log 6); the input alphabet is decision D8 (log 7). -/
def Obligations.StepIsFatalExactlyOnAbort : Prop :=
  (∀ (s : State) (c : Fault), step s = .fault c ↔
    c = .deviceErrorInputAbort ∧ s.input.head? = some .abort ∧ ∃ a, s.current? = some (.load a 0xFFFF#16)) ∧
  ∀ s : State, SafeStep s ∨ step s = .fault .deviceErrorInputAbort

/-! ### Isolation -/

/-- R18: the core never reads `OUT` back: with other bytes emitted before, a step does the same and emits the same. -/
def Obligations.OutputIsNeverReadBack : Prop :=
  ∀ (s : State) (before : List Byte),
    step { s with output := before ++ s.output } = mapNext (fun t => { t with output := before ++ t.output }) (step s)

/-- R103, R32: events behind the first have no effect on a step, an unread `Abort` among them. -/
def Obligations.UnreadInputHasNoEffect : Prop :=
  ∀ (s : State) (more : List InputEvent), s.input ≠ [] →
    step { s with input := s.input ++ more } = mapNext (fun t => { t with input := t.input ++ more }) (step s)

/-- R17, R32, R33: a data access never reaches the cell behind the port. With another byte in `mem[0xFFFF]`, a step that
fetches none of its bytes there does the same and leaves that byte there. -/
def Obligations.CellBehindThePortIsInvisible : Prop :=
  ∀ (s : State) (v : Byte), s.mem.wf →
    (∀ k < s.instrBytes.length, s.ip + BitVec.ofNat 16 k ≠ 0xFFFF#16) →
    step (s.setCell 0xFFFF#16 v) = mapNext (·.setCell 0xFFFF#16 v) (step s)

/-! ### Reset, load and the driver -/

/-- R22: every reset value. They are reading D13 of "identity/zero defaults" (log 9); the empty `input` is the model's
choice (log 10). -/
def Obligations.ResetValues : Prop :=
  (∀ r, State.reset.reg r = 0x00#8) ∧ State.reset.ip = 0x0000#16 ∧ State.reset.rp = 0x0000#16 ∧
  State.reset.halted = false ∧ (∀ x, State.reset.cell x = 0x00#8) ∧ State.reset.output = [] ∧ State.reset.input = []

/-- The invariant holds at reset. -/
def Obligations.ResetMemoryIsCanonical : Prop := CanonicalState State.reset

/-- From every state with a canonical memory, a step gives a state with a canonical memory. -/
def Obligations.StepKeepsMemoryCanonical : Prop :=
  ∀ s t : State, CanonicalState s → step s = .next t → CanonicalState t

/-- R43: an image of at most 65536 bytes is placed from address 0, the last byte of a full one in `mem[0xFFFF]`; cells
past it, registers, the flag and the streams keep their values; a longer one is LoadError. -/
def Obligations.LoadPlacesTheImage : Prop :=
  ∀ (s : State) (data : List Byte), s.mem.wf →
    (data.length ≤ 65536 → ∃ t, s.load data = .next t ∧ t.mem.wf ∧
      (∀ x : Word, t.cell x = data.getD x.toNat (s.cell x)) ∧
      SameRegs s t ∧ t.ip = s.ip ∧ t.rp = s.rp ∧ t.halted = s.halted ∧ SameStreams s t) ∧
    (65536 < data.length → s.load data = .fault .loadError)

/-- R121: the launch state is completely determined by the image and the input. -/
def Obligations.LaunchStateIsDetermined : Prop :=
  ∀ (image : List Byte) (input : List InputEvent), image.length ≤ 65536 →
    ∃ t, launch image input = .next t ∧ (∀ r, t.reg r = 0x00#8) ∧ t.ip = 0x0000#16 ∧ t.rp = 0x0000#16 ∧
      t.halted = false ∧ (∀ x : Word, t.cell x = image.getD x.toNat 0x00#8) ∧ t.output = [] ∧ t.input = input

/-- R120: `reset` of a core that has run gives every piece of core state its reset value and leaves the streams
(decision D16, log 12). -/
def Obligations.ResetRestoresTheCoreNotTheStreams : Prop :=
  ∀ s : State, (∀ r, s.applyReset.reg r = 0x00#8) ∧ s.applyReset.ip = 0x0000#16 ∧ s.applyReset.rp = 0x0000#16 ∧
    s.applyReset.halted = false ∧ (∀ x, s.applyReset.cell x = 0x00#8) ∧ SameStreams s s.applyReset

/-- R123, R128, R102: along every run the driver may make: memory stays canonical; a fatal end is LoadError or
an aborted read; after a fatal end only `reset` is a move; no `load` is a move once the run has started. Rests on the
session form of the contract (log 5, 11), on the default OUT_VALID (log 6), on the model's moves of a waiting core and of
a delivery (log 8, 27), and on decision D16 for `reset` at any time (log 12). -/
def Obligations.EveryReachableSessionKeepsTheContract : Prop :=
  ∀ x, Reachable x →
    (∀ p s, x = .live p s → CanonicalState s) ∧
    (∀ c i o, x = .fatal c i o → (c = .loadError ∨ c = .deviceErrorInputAbort) ∧
      ∀ op y, Session.move op x = some y → op = .reset) ∧
    (∀ s data, x = .live .started s → Session.move (.load data) x = none)

/-- R128: what the table allows is a move: `reset` always, `step` on every live core, `load` on one that has neither been
loaded nor stepped. That a step without a load is allowed is the reading of log 25; that a step of a waiting core is a
move, to the same state, is the model's form of a step that does not happen (log 8); that of a halted core is the no-op
of decision D5 (log 4). A delivery stands in no row of R128's table: that it is a move, at the end of the input, is the
model's choice (log 27). The session form of the contract is log 11, and `reset` at any time decision D16 (log 12). -/
def Obligations.AllowedHostOperationsAreMoves : Prop :=
  ∀ x : Session, (Session.move .reset x).isSome = true ∧
    (∀ p s, x = .live p s → (Session.move .step x).isSome = true ∧
      ∀ e, Session.move (.deliver e) x = some (.live p (s.deliver e))) ∧
    (∀ s data, x = .live .built s → ∃ y, Session.move (.load data) x = some y ∧
      (data.length ≤ 65536 → ∃ t, y = .live .started t))

/-- R102: a fatal step emits nothing; the bytes emitted before it stay emitted. What is left of the input after it is
the model's reading (log 24): the consumed `Abort` is gone, and any other cause would leave the input as it was. That
every fatal step is such a read, so that each loses its first event, is the default OUT_VALID, decision D7 (log 6). The
terminal outcome with the two streams is log 5. -/
def Obligations.FatalStepEmitsNothing : Prop :=
  ∀ (p : Phase) (s : State) (c : Fault), step s = .fault c →
    Session.move .step (.live p s) = some (.fatal c s.input.tail s.output)
end

