-- ==== Sys2Proof/Laws/Decode.lean ====
section
/-! SUPPORT. The small lemmas of the decoder and encoder: fields of an assembled byte, selectors, lengths, rows. -/

namespace Sys2Proof

@[simp] theorem opcodeField_firstByte (op : BitVec 4) (a b : BitVec 2) : opcodeField (firstByte op a b) = op := by
  revert op a b; decide

@[simp] theorem regAField_firstByte (op : BitVec 4) (a b : BitVec 2) : regAField (firstByte op a b) = a := by
  revert op a b; decide

@[simp] theorem regBField_firstByte (op : BitVec 4) (a b : BitVec 2) : regBField (firstByte op a b) = b := by
  revert op a b; decide

/-- Every byte is the assembly of its three fields (R51). -/
theorem firstByte_fields (b0 : Byte) : firstByte (opcodeField b0) (regAField b0) (regBField b0) = b0 := by
  revert b0; decide

@[simp] theorem Reg.ofSelector_selector (r : Reg) : Reg.ofSelector r.selector = r := by cases r <;> decide

@[simp] theorem Reg.selector_ofSelector (n : BitVec 2) : (Reg.ofSelector n).selector = n := by revert n; decide

/-- The operand bytes, assembled, give the operand back (R53). -/
@[simp] theorem operand_halves (addr : Word) : addr.extractLsb' 8 8 ++ addr.extractLsb' 0 8 = addr := by
  apply BitVec.eq_of_getLsbD_eq
  intro i hi
  simp only [BitVec.getLsbD_append, BitVec.getLsbD_extractLsb']
  split
  · simp [*]
  · simp [show i - 8 < 8 by omega, show 8 + (i - 8) = i by omega]

/-- The operand assembled from its two bytes is `hi*256 + lo` (R53). -/
theorem operand_eq (hi lo : Byte) : (hi ++ lo : Word) = BitVec.ofNat 16 (256 * hi.toNat + lo.toNat) := by
  apply BitVec.eq_of_toNat_eq
  rw [BitVec.toNat_append, BitVec.toNat_ofNat, ← Nat.shiftLeft_add_eq_or_of_lt lo.isLt, Nat.shiftLeft_eq]
  omega

/-- The high half of an assembled operand is the first byte. -/
@[simp] theorem operand_hi (hi lo : Byte) : (hi ++ lo : BitVec (8 + 8)).extractLsb' 8 8 = hi := by
  apply BitVec.eq_of_toNat_eq
  rw [BitVec.extractLsb'_toNat, BitVec.toNat_append, ← Nat.shiftLeft_add_eq_or_of_lt lo.isLt, Nat.shiftLeft_eq,
    Nat.shiftRight_eq_div_pow]
  omega

/-- The low half of an assembled operand is the second byte. -/
@[simp] theorem operand_lo (hi lo : Byte) : (hi ++ lo : BitVec (8 + 8)).extractLsb' 0 8 = lo := by
  apply BitVec.eq_of_toNat_eq
  rw [BitVec.extractLsb'_toNat, BitVec.toNat_append, ← Nat.shiftLeft_add_eq_or_of_lt lo.isLt, Nat.shiftLeft_eq,
    Nat.shiftRight_eq_div_pow]
  omega

@[simp] theorem Mnemonic.build_mnemonic (m : Mnemonic) (a b : Reg) (addr : Word) : (m.build a b addr).mnemonic = m := by
  cases m <;> rfl

/-- Filling an instruction's own fields into its row gives the instruction back. -/
theorem Instr.build_self (i : Instr) :
    i.mnemonic.build (i.regA?.getD .r0) (i.regB?.getD .r0) (i.operand?.getD 0#16) = i := by
  cases i <;> rfl

theorem Instr.length_cases (i : Instr) : i.length = 1 ∨ i.length = 3 := by
  unfold Instr.length; split <;> simp

/-- The default map gives every opcode a row. -/
theorem rowOf_opcodeMap_isSome (b0 : Byte) : (rowOf opcodeMap b0).isSome = true := by
  revert b0; decide

/-- A decoded instruction: which row, which fields, and what is left. -/
theorem decodeWith_cases {m : OpcodeMap} {bytes rest : List Byte} {i : Instr} (h : decodeWith m bytes = .ok (i, rest)) :
    ∃ b0 row tail, bytes = b0 :: tail ∧ rowOf m b0 = some row ∧
      ((row.takesOperand = true ∧ ∃ hi lo, tail = hi :: lo :: rest ∧
          i = row.build (Reg.ofSelector (regAField b0)) (Reg.ofSelector (regBField b0)) (hi ++ lo)) ∨
       (row.takesOperand = false ∧ tail = rest ∧
          i = row.build (Reg.ofSelector (regAField b0)) (Reg.ofSelector (regBField b0)) 0#16)) := by
  cases bytes with
  | nil => simp [decodeWith] at h
  | cons b0 tail =>
    simp only [decodeWith] at h
    split at h
    · cases h
    · rename_i row hrow
      refine ⟨b0, row, tail, rfl, hrow, ?_⟩
      split at h
      · rename_i hop
        split at h
        · cases h
          exact .inl ⟨hop, _, _, rfl, rfl⟩
        · cases h
      · rename_i hop
        cases h
        exact .inr ⟨by simpa using hop, rfl, rfl⟩

end Sys2Proof
end

