-- ==== Sys2Proof/Laws/Memory.lean ====
section
/-! SUPPORT. The laws of the backing array: every operation keeps the canonical form, a read after a write to the same
cell gives the value written, and a write leaves every other cell alone. -/

namespace Sys2Proof.Machine

theorem Memory.wf_nil : Memory.wf [] := ⟨List.Pairwise.nil, fun _ h => absurd h List.not_mem_nil⟩

/-- A canonical memory without its first entry is canonical. -/
theorem Memory.wf_tail {c : Host.Cell} {m : Memory} (h : Memory.wf (c :: m)) : Memory.wf m :=
  ⟨(List.pairwise_cons.mp h.1).2, fun d hd => h.2 d (List.mem_cons_of_mem c hd)⟩

/-- Every entry after the first has a higher address. -/
theorem Memory.lt_of_wf_cons {c d : Host.Cell} {m : Memory} (h : Memory.wf (c :: m)) (hd : d ∈ m) : c.1 < d.1 :=
  (List.pairwise_cons.mp h.1).1 d hd

theorem Memory.mem_putFirst {m : Memory} {a : Nat} {v : Byte} {d : Host.Cell} (h : d ∈ Memory.putFirst m a v) :
    (d = (a, v) ∧ v ≠ Config.blankByte) ∨ d ∈ m := by
  unfold Memory.putFirst at h
  split at h
  · exact .inr h
  · rcases List.mem_cons.mp h with h | h
    · exact .inl ⟨h, ‹_›⟩
    · exact .inr h

theorem Memory.putFirst_wf {m : Memory} {a : Nat} {v : Byte} (h : Memory.wf m) (ha : a < Config.memSize)
    (hlt : ∀ d ∈ m, a < d.1) : Memory.wf (Memory.putFirst m a v) := by
  unfold Memory.putFirst
  split
  · exact h
  · refine ⟨List.pairwise_cons.mpr ⟨hlt, h.1⟩, fun d hd => ?_⟩
    rcases List.mem_cons.mp hd with rfl | hd
    · exact ⟨ha, ‹_›⟩
    · exact h.2 d hd

/-- Every entry after a write is the written cell or an old entry. -/
theorem Memory.mem_write {m : Memory} {a : Nat} {v : Byte} {d : Host.Cell} (h : d ∈ Memory.write m a v) :
    (d = (a, v) ∧ v ≠ Config.blankByte) ∨ d ∈ m := by
  induction m with
  | nil => exact Memory.mem_putFirst h
  | cons c m ih =>
    obtain ⟨k, w⟩ := c
    simp only [Memory.write] at h
    split at h
    · exact Memory.mem_putFirst h
    · split at h
      · exact (Memory.mem_putFirst h).imp_right (List.mem_cons_of_mem _)
      · rcases List.mem_cons.mp h with h | h
        · exact .inr (h ▸ List.mem_cons_self)
        · exact (ih h).imp_right (List.mem_cons_of_mem _)

/-- A write keeps the canonical form. -/
theorem Memory.write_wf {m : Memory} (h : Memory.wf m) (a : Nat) (v : Byte) (ha : a < Config.memSize) :
    Memory.wf (Memory.write m a v) := by
  induction m with
  | nil => exact Memory.putFirst_wf Memory.wf_nil ha (by simp)
  | cons c m ih =>
    obtain ⟨k, w⟩ := c
    simp only [Memory.write]
    split
    · rename_i hak
      refine Memory.putFirst_wf h ha fun d hd => ?_
      rcases List.mem_cons.mp hd with rfl | hd
      · exact hak
      · exact Nat.lt_trans hak (Memory.lt_of_wf_cons h hd)
    · split
      · rename_i hak
        subst hak
        exact Memory.putFirst_wf (Memory.wf_tail h) ha fun d hd => Memory.lt_of_wf_cons h hd
      · have ih := ih (Memory.wf_tail h)
        refine ⟨List.pairwise_cons.mpr ⟨fun d hd => ?_, ih.1⟩, fun d hd => ?_⟩
        · rcases Memory.mem_write hd with ⟨rfl, -⟩ | hd
          · simp only; omega
          · exact Memory.lt_of_wf_cons h hd
        · rcases List.mem_cons.mp hd with rfl | hd
          · exact h.2 _ List.mem_cons_self
          · exact ih.2 d hd

/-- A cell below every entry is unlisted. -/
theorem Memory.read_below {m : Memory} {a : Nat} (h : ∀ d ∈ m, a < d.1) : Memory.read m a = Config.blankByte := by
  cases m with
  | nil => rfl
  | cons c m => simp [Memory.read, h c List.mem_cons_self]

theorem Memory.read_putFirst_same {m : Memory} {a : Nat} {v : Byte} (h : ∀ d ∈ m, a < d.1) :
    Memory.read (Memory.putFirst m a v) a = v := by
  unfold Memory.putFirst
  split
  · rw [Memory.read_below h, ‹v = _›]
  · simp [Memory.read]

theorem Memory.read_putFirst_other {m : Memory} {a x : Nat} {v : Byte} (h : ∀ d ∈ m, a < d.1) (hx : x ≠ a) :
    Memory.read (Memory.putFirst m a v) x = Memory.read m x := by
  unfold Memory.putFirst
  split
  · rfl
  · simp only [Memory.read]
    split
    · exact (Memory.read_below fun d hd => Nat.lt_trans ‹x < a› (h d hd)).symm
    · simp

/-- A read after a write to the same cell gives the value written. -/
theorem Memory.read_write_same {m : Memory} (h : Memory.wf m) (a : Nat) (v : Byte) :
    Memory.read (Memory.write m a v) a = v := by
  induction m with
  | nil => exact Memory.read_putFirst_same (by simp)
  | cons c m ih =>
    obtain ⟨k, w⟩ := c
    simp only [Memory.write]
    split
    · rename_i hak
      refine Memory.read_putFirst_same fun d hd => ?_
      rcases List.mem_cons.mp hd with rfl | hd
      · exact hak
      · exact Nat.lt_trans hak (Memory.lt_of_wf_cons h hd)
    · split
      · rename_i hak
        subst hak
        exact Memory.read_putFirst_same fun d hd => Memory.lt_of_wf_cons h hd
      · rename_i h1 h2
        simp [Memory.read, h1, h2, ih (Memory.wf_tail h)]

/-- A write leaves every other cell alone. -/
theorem Memory.read_write_other {m : Memory} (h : Memory.wf m) {a x : Nat} (v : Byte) (hx : x ≠ a) :
    Memory.read (Memory.write m a v) x = Memory.read m x := by
  induction m with
  | nil => exact Memory.read_putFirst_other (by simp) hx
  | cons c m ih =>
    obtain ⟨k, w⟩ := c
    simp only [Memory.write]
    split
    · rename_i hak
      refine Memory.read_putFirst_other (fun d hd => ?_) hx
      rcases List.mem_cons.mp hd with rfl | hd
      · exact hak
      · exact Nat.lt_trans hak (Memory.lt_of_wf_cons h hd)
    · split
      · rename_i hak
        subst hak
        have hb : ∀ d ∈ m, a < d.1 := fun d hd => Memory.lt_of_wf_cons h hd
        rw [Memory.read_putFirst_other hb hx]
        simp only [Memory.read]
        split
        · exact Memory.read_below fun d hd => Nat.lt_trans ‹x < a› (hb d hd)
        · simp
      · simp only [Memory.read]
        rw [ih (Memory.wf_tail h)]

/-- Loading an image keeps the canonical form when it fits. -/
theorem Memory.loadAt_wf {m : Memory} (h : Memory.wf m) (data : List Byte) (k : Nat)
    (hk : k + data.length ≤ Config.memSize) : Memory.wf (Memory.loadAt k data m) := by
  induction data generalizing k with
  | nil => exact h
  | cons b bs ih =>
    simp only [List.length_cons] at hk
    exact Memory.write_wf (ih (k + 1) (by omega)) k b (by omega)

/-! ### The same on states -/

theorem Word.toNat_lt_memSize (a : Word) : a.toNat < Config.memSize := a.isLt

theorem setCell_cell_same {s : State} (h : s.mem.wf) (a : Word) (v : Byte) : (s.setCell a v).cell a = v :=
  Memory.read_write_same h a.toNat v

theorem setCell_cell_other {s : State} (h : s.mem.wf) {a x : Word} (v : Byte) (hx : x ≠ a) :
    (s.setCell a v).cell x = s.cell x :=
  Memory.read_write_other h v fun e => hx (BitVec.eq_of_toNat_eq e)

theorem setCell_wf {s : State} (h : s.mem.wf) (a : Word) (v : Byte) : (s.setCell a v).mem.wf :=
  Memory.write_wf h a.toNat v (Word.toNat_lt_memSize a)

end Sys2Proof.Machine
end

