-- ==== Sys2Proof/Laws/State.lean ====
section
/-! SUPPORT. One lemma per field per update of State, so that no later proof unfolds a record update. -/

namespace Sys2Proof.Machine

variable (s : State)

/-! ### `setIp` -/

@[simp] theorem setIp_r0 (a : Word) : (s.setIp a).r0 = s.r0 := rfl
@[simp] theorem setIp_r1 (a : Word) : (s.setIp a).r1 = s.r1 := rfl
@[simp] theorem setIp_r2 (a : Word) : (s.setIp a).r2 = s.r2 := rfl
@[simp] theorem setIp_r3 (a : Word) : (s.setIp a).r3 = s.r3 := rfl
@[simp] theorem setIp_ip (a : Word) : (s.setIp a).ip = a := rfl
@[simp] theorem setIp_rp (a : Word) : (s.setIp a).rp = s.rp := rfl
@[simp] theorem setIp_halted (a : Word) : (s.setIp a).halted = s.halted := rfl
@[simp] theorem setIp_mem (a : Word) : (s.setIp a).mem = s.mem := rfl
@[simp] theorem setIp_input (a : Word) : (s.setIp a).input = s.input := rfl
@[simp] theorem setIp_output (a : Word) : (s.setIp a).output = s.output := rfl
@[simp] theorem setIp_reg (a : Word) (r : Reg) : (s.setIp a).reg r = s.reg r := by cases r <;> rfl
@[simp] theorem setIp_cell (x : Word) (a : Word) : (s.setIp x).cell a = s.cell a := rfl

/-! ### `setRp` -/

@[simp] theorem setRp_r0 (a : Word) : (s.setRp a).r0 = s.r0 := rfl
@[simp] theorem setRp_r1 (a : Word) : (s.setRp a).r1 = s.r1 := rfl
@[simp] theorem setRp_r2 (a : Word) : (s.setRp a).r2 = s.r2 := rfl
@[simp] theorem setRp_r3 (a : Word) : (s.setRp a).r3 = s.r3 := rfl
@[simp] theorem setRp_ip (a : Word) : (s.setRp a).ip = s.ip := rfl
@[simp] theorem setRp_rp (a : Word) : (s.setRp a).rp = a := rfl
@[simp] theorem setRp_halted (a : Word) : (s.setRp a).halted = s.halted := rfl
@[simp] theorem setRp_mem (a : Word) : (s.setRp a).mem = s.mem := rfl
@[simp] theorem setRp_input (a : Word) : (s.setRp a).input = s.input := rfl
@[simp] theorem setRp_output (a : Word) : (s.setRp a).output = s.output := rfl
@[simp] theorem setRp_reg (a : Word) (r : Reg) : (s.setRp a).reg r = s.reg r := by cases r <;> rfl
@[simp] theorem setRp_cell (x : Word) (a : Word) : (s.setRp x).cell a = s.cell a := rfl

/-! ### `advance` -/

@[simp] theorem advance_r0 (n : Nat) : (s.advance n).r0 = s.r0 := rfl
@[simp] theorem advance_r1 (n : Nat) : (s.advance n).r1 = s.r1 := rfl
@[simp] theorem advance_r2 (n : Nat) : (s.advance n).r2 = s.r2 := rfl
@[simp] theorem advance_r3 (n : Nat) : (s.advance n).r3 = s.r3 := rfl
@[simp] theorem advance_ip (n : Nat) : (s.advance n).ip = s.ip + BitVec.ofNat 16 n := rfl
@[simp] theorem advance_rp (n : Nat) : (s.advance n).rp = s.rp := rfl
@[simp] theorem advance_halted (n : Nat) : (s.advance n).halted = s.halted := rfl
@[simp] theorem advance_mem (n : Nat) : (s.advance n).mem = s.mem := rfl
@[simp] theorem advance_input (n : Nat) : (s.advance n).input = s.input := rfl
@[simp] theorem advance_output (n : Nat) : (s.advance n).output = s.output := rfl
@[simp] theorem advance_reg (n : Nat) (r : Reg) : (s.advance n).reg r = s.reg r := by cases r <;> rfl
@[simp] theorem advance_cell (n : Nat) (a : Word) : (s.advance n).cell a = s.cell a := rfl

/-! ### `setCell` -/

@[simp] theorem setCell_r0 (a : Word) (v : Byte) : (s.setCell a v).r0 = s.r0 := rfl
@[simp] theorem setCell_r1 (a : Word) (v : Byte) : (s.setCell a v).r1 = s.r1 := rfl
@[simp] theorem setCell_r2 (a : Word) (v : Byte) : (s.setCell a v).r2 = s.r2 := rfl
@[simp] theorem setCell_r3 (a : Word) (v : Byte) : (s.setCell a v).r3 = s.r3 := rfl
@[simp] theorem setCell_ip (a : Word) (v : Byte) : (s.setCell a v).ip = s.ip := rfl
@[simp] theorem setCell_rp (a : Word) (v : Byte) : (s.setCell a v).rp = s.rp := rfl
@[simp] theorem setCell_halted (a : Word) (v : Byte) : (s.setCell a v).halted = s.halted := rfl
@[simp] theorem setCell_mem (a : Word) (v : Byte) : (s.setCell a v).mem = s.mem.write a.toNat v := rfl
@[simp] theorem setCell_input (a : Word) (v : Byte) : (s.setCell a v).input = s.input := rfl
@[simp] theorem setCell_output (a : Word) (v : Byte) : (s.setCell a v).output = s.output := rfl
@[simp] theorem setCell_reg (a : Word) (v : Byte) (r : Reg) : (s.setCell a v).reg r = s.reg r := by cases r <;> rfl

/-! ### `emit` -/

@[simp] theorem emit_r0 (b : Byte) : (s.emit b).r0 = s.r0 := rfl
@[simp] theorem emit_r1 (b : Byte) : (s.emit b).r1 = s.r1 := rfl
@[simp] theorem emit_r2 (b : Byte) : (s.emit b).r2 = s.r2 := rfl
@[simp] theorem emit_r3 (b : Byte) : (s.emit b).r3 = s.r3 := rfl
@[simp] theorem emit_ip (b : Byte) : (s.emit b).ip = s.ip := rfl
@[simp] theorem emit_rp (b : Byte) : (s.emit b).rp = s.rp := rfl
@[simp] theorem emit_halted (b : Byte) : (s.emit b).halted = s.halted := rfl
@[simp] theorem emit_mem (b : Byte) : (s.emit b).mem = s.mem := rfl
@[simp] theorem emit_input (b : Byte) : (s.emit b).input = s.input := rfl
@[simp] theorem emit_output (b : Byte) : (s.emit b).output = s.output ++ [b] := rfl
@[simp] theorem emit_reg (b : Byte) (r : Reg) : (s.emit b).reg r = s.reg r := by cases r <;> rfl
@[simp] theorem emit_cell (b : Byte) (a : Word) : (s.emit b).cell a = s.cell a := rfl

/-! ### `setHalted` -/

@[simp] theorem setHalted_r0 : (s.setHalted).r0 = s.r0 := rfl
@[simp] theorem setHalted_r1 : (s.setHalted).r1 = s.r1 := rfl
@[simp] theorem setHalted_r2 : (s.setHalted).r2 = s.r2 := rfl
@[simp] theorem setHalted_r3 : (s.setHalted).r3 = s.r3 := rfl
@[simp] theorem setHalted_ip : (s.setHalted).ip = s.ip := rfl
@[simp] theorem setHalted_rp : (s.setHalted).rp = s.rp := rfl
@[simp] theorem setHalted_halted : (s.setHalted).halted = true := rfl
@[simp] theorem setHalted_mem : (s.setHalted).mem = s.mem := rfl
@[simp] theorem setHalted_input : (s.setHalted).input = s.input := rfl
@[simp] theorem setHalted_output : (s.setHalted).output = s.output := rfl
@[simp] theorem setHalted_reg (r : Reg) : (s.setHalted).reg r = s.reg r := by cases r <;> rfl
@[simp] theorem setHalted_cell (a : Word) : (s.setHalted).cell a = s.cell a := rfl

/-! ### `deliver` -/

@[simp] theorem deliver_r0 (e : InputEvent) : (s.deliver e).r0 = s.r0 := rfl
@[simp] theorem deliver_r1 (e : InputEvent) : (s.deliver e).r1 = s.r1 := rfl
@[simp] theorem deliver_r2 (e : InputEvent) : (s.deliver e).r2 = s.r2 := rfl
@[simp] theorem deliver_r3 (e : InputEvent) : (s.deliver e).r3 = s.r3 := rfl
@[simp] theorem deliver_ip (e : InputEvent) : (s.deliver e).ip = s.ip := rfl
@[simp] theorem deliver_rp (e : InputEvent) : (s.deliver e).rp = s.rp := rfl
@[simp] theorem deliver_halted (e : InputEvent) : (s.deliver e).halted = s.halted := rfl
@[simp] theorem deliver_mem (e : InputEvent) : (s.deliver e).mem = s.mem := rfl
@[simp] theorem deliver_input (e : InputEvent) : (s.deliver e).input = s.input ++ [e] := rfl
@[simp] theorem deliver_output (e : InputEvent) : (s.deliver e).output = s.output := rfl
@[simp] theorem deliver_reg (e : InputEvent) (r : Reg) : (s.deliver e).reg r = s.reg r := by cases r <;> rfl
@[simp] theorem deliver_cell (e : InputEvent) (a : Word) : (s.deliver e).cell a = s.cell a := rfl

/-! ### `pastS` -/

@[simp] theorem pastS_r0 : (s.pastS).r0 = s.r0 := rfl
@[simp] theorem pastS_r1 : (s.pastS).r1 = s.r1 := rfl
@[simp] theorem pastS_r2 : (s.pastS).r2 = s.r2 := rfl
@[simp] theorem pastS_r3 : (s.pastS).r3 = s.r3 := rfl
@[simp] theorem pastS_ip : (s.pastS).ip = s.ip + 1#16 := rfl
@[simp] theorem pastS_rp : (s.pastS).rp = s.rp := rfl
@[simp] theorem pastS_halted : (s.pastS).halted = s.halted := rfl
@[simp] theorem pastS_mem : (s.pastS).mem = s.mem := rfl
@[simp] theorem pastS_input : (s.pastS).input = s.input := rfl
@[simp] theorem pastS_output : (s.pastS).output = s.output := rfl
@[simp] theorem pastS_reg (r : Reg) : (s.pastS).reg r = s.reg r := by cases r <;> rfl
@[simp] theorem pastS_cell (a : Word) : (s.pastS).cell a = s.cell a := rfl

/-! ### `pastL` -/

@[simp] theorem pastL_r0 : (s.pastL).r0 = s.r0 := rfl
@[simp] theorem pastL_r1 : (s.pastL).r1 = s.r1 := rfl
@[simp] theorem pastL_r2 : (s.pastL).r2 = s.r2 := rfl
@[simp] theorem pastL_r3 : (s.pastL).r3 = s.r3 := rfl
@[simp] theorem pastL_ip : (s.pastL).ip = s.ip + 3#16 := rfl
@[simp] theorem pastL_rp : (s.pastL).rp = s.rp := rfl
@[simp] theorem pastL_halted : (s.pastL).halted = s.halted := rfl
@[simp] theorem pastL_mem : (s.pastL).mem = s.mem := rfl
@[simp] theorem pastL_input : (s.pastL).input = s.input := rfl
@[simp] theorem pastL_output : (s.pastL).output = s.output := rfl
@[simp] theorem pastL_reg (r : Reg) : (s.pastL).reg r = s.reg r := by cases r <;> rfl
@[simp] theorem pastL_cell (a : Word) : (s.pastL).cell a = s.cell a := rfl

/-! ### `setReg` -/

@[simp] theorem setReg_ip (r : Reg) (v : Byte) : (s.setReg r v).ip = s.ip := by cases r <;> rfl
@[simp] theorem setReg_rp (r : Reg) (v : Byte) : (s.setReg r v).rp = s.rp := by cases r <;> rfl
@[simp] theorem setReg_halted (r : Reg) (v : Byte) : (s.setReg r v).halted = s.halted := by cases r <;> rfl
@[simp] theorem setReg_mem (r : Reg) (v : Byte) : (s.setReg r v).mem = s.mem := by cases r <;> rfl
@[simp] theorem setReg_input (r : Reg) (v : Byte) : (s.setReg r v).input = s.input := by cases r <;> rfl
@[simp] theorem setReg_output (r : Reg) (v : Byte) : (s.setReg r v).output = s.output := by cases r <;> rfl
@[simp] theorem setReg_cell (r : Reg) (v : Byte) (a : Word) : (s.setReg r v).cell a = s.cell a := by cases r <;> rfl

/-- Reading back the register just written. -/
@[simp] theorem setReg_reg_same (r : Reg) (v : Byte) : (s.setReg r v).reg r = v := by cases r <;> rfl

/-- The other three registers keep their values. -/
theorem setReg_reg_other (r q : Reg) (v : Byte) (h : q ≠ r) : (s.setReg r v).reg q = s.reg q := by
  cases r <;> cases q <;> first | rfl | exact absurd rfl h

/-- Two states with the same fields as seen by the accessors are the same state. -/
theorem State.ext_reg (s t : State) (hr : ∀ r, s.reg r = t.reg r) (hip : s.ip = t.ip) (hrp : s.rp = t.rp)
    (hh : s.halted = t.halted) (hm : s.mem = t.mem) (hi : s.input = t.input) (ho : s.output = t.output) : s = t := by
  have h0 := hr .r0
  have h1 := hr .r1
  have h2 := hr .r2
  have h3 := hr .r3
  cases s
  cases t
  simp_all [State.reg]

end Sys2Proof.Machine
end

