-- ==== Sys2Proof/Laws/Ops.lean ====
section
/-! SUPPORT. For each shared operation, once, everything it can do; later proofs cite these instead of unfolding. -/

namespace Sys2Proof.Machine

/-! ### Register forms -/

/-- `MNEMONIC ra` always completes, with this state. -/
theorem updateReg_eq (a : Reg) (f : Byte → Byte) (s : State) :
    updateReg a f s = .next (s.pastS.setReg a (f (s.reg a))) := by
  simp [updateReg]

/-- `MNEMONIC ra,rb` always completes, with this state. -/
theorem combineRegs_eq (a b : Reg) (f : Byte → Byte → Byte) (s : State) :
    combineRegs a b f s = .next (s.pastS.setReg a (f (s.reg a) (s.reg b))) := by
  simp [combineRegs]

/-! ### Control transfer -/

theorem regsEqual_iff (s : State) (a b : Reg) : s.regsEqual a b = true ↔ s.reg a = s.reg b := by
  simp [State.regsEqual]

theorem branchIf_eq (c : Bool) (addr : Word) (s : State) :
    branchIf c addr s = .next (s.setIp (if c then addr else s.ip + 3#16)) := by
  cases c <;> rfl

theorem callIf_eq (c : Bool) (addr : Word) (s : State) :
    callIf c addr s = .next (if c then (s.setRp (s.ip + 3#16)).setIp addr else s.setIp (s.ip + 3#16)) := by
  cases c <;> rfl

/-! ### Data accesses -/

theorem memRead_storage {s : State} {a : Word} (h : a ≠ Config.devAddr) : s.memRead a = .got (s.cell a) s := by
  simp [State.memRead, h]

/-- A device read: which of the three things happens depends on the first event alone. -/
theorem memRead_device (s : State) :
    (s.input = [] ∧ s.memRead Config.devAddr = .waiting) ∨
    (∃ rest, s.input = .abort :: rest ∧ s.memRead Config.devAddr = .fatal .deviceErrorInputAbort) ∨
    (∃ e b rest, s.input = e :: rest ∧ inByte e = some b ∧
      s.memRead Config.devAddr = .got b { s with input := rest, output := s.output ++ [b] }) := by
  cases hi : s.input with
  | nil => exact .inl ⟨rfl, by simp [State.memRead, State.deviceRead, hi]⟩
  | cons e rest =>
    cases e with
    | abort => exact .inr (.inl ⟨rest, rfl, by simp [State.memRead, State.deviceRead, hi, inByte]⟩)
    | _ =>
      exact .inr (.inr ⟨_, _, rest, rfl, rfl, by simp [State.memRead, State.deviceRead, hi, inByte, State.emit]⟩)

theorem inByte_eq_none_iff (e : InputEvent) : inByte e = none ↔ e = .abort := by
  cases e <;> simp [inByte]

theorem memWriteWith_storage {s : State} {a : Word} (valid : Byte → Bool) (v : Byte) (h : a ≠ Config.devAddr) :
    s.memWriteWith valid a v = .ok (s.setCell a v) := by
  simp [State.memWriteWith, h]

theorem memWriteWith_device (s : State) (valid : Byte → Bool) (v : Byte) :
    s.memWriteWith valid Config.devAddr v = if valid v then .ok (s.emit v) else .error .deviceErrorInvalidOutput := by
  simp [State.memWriteWith]

/-! ### LOAD and STOR -/

theorem execLoad_storage {a : Reg} {addr : Word} (s : State) (h : addr ≠ Config.devAddr) :
    execLoad a addr s = .next (s.pastL.setReg a (s.cell addr)) := by
  simp [execLoad, effectiveAddr, memRead_storage h]

theorem execLoad_waiting {a : Reg} {s : State} (h : s.input = []) : execLoad a Config.devAddr s = .next s := by
  simp [execLoad, effectiveAddr, State.memRead, State.deviceRead, h]

theorem execLoad_abort {a : Reg} {s : State} {rest : List InputEvent} (h : s.input = .abort :: rest) :
    execLoad a Config.devAddr s = .fault .deviceErrorInputAbort := by
  simp [execLoad, effectiveAddr, State.memRead, State.deviceRead, h, inByte, raiseFatal]

theorem execLoad_event {a : Reg} {s : State} {e : InputEvent} {b : Byte} {rest : List InputEvent}
    (h : s.input = e :: rest) (hb : inByte e = some b) :
    execLoad a Config.devAddr s =
      .next ((({ s.pastL with input := rest } : State).emit b).setReg a b) := by
  simp [execLoad, effectiveAddr, State.memRead, State.deviceRead, h, hb]

theorem storeWith_storage {a : Reg} {addr : Word} (valid : Byte → Bool) (s : State) (h : addr ≠ Config.devAddr) :
    storeWith valid a addr s = .next (s.pastL.setCell addr (s.reg a)) := by
  simp [storeWith, effectiveAddr, memWriteWith_storage valid _ h]

theorem storeWith_device (valid : Byte → Bool) (a : Reg) (s : State) :
    storeWith valid a Config.devAddr s =
      if valid (s.reg a) then .next (s.pastL.emit (s.reg a)) else .fault .deviceErrorInvalidOutput := by
  simp only [storeWith, effectiveAddr, memWriteWith_device, pastL_reg]
  by_cases h : valid (s.reg a) = true <;> simp [h, raiseFatal]

/-- STOR with the default OUT_VALID always completes. -/
theorem execStor_eq (a : Reg) (addr : Word) (s : State) :
    execStor a addr s =
      .next (if addr = Config.devAddr then s.pastL.emit (s.reg a) else s.pastL.setCell addr (s.reg a)) := by
  by_cases h : addr = Config.devAddr
  · subst h
    simp [execStor, storeWith_device, outValid]
  · simp [execStor, storeWith_storage _ s h, h]

/-! ### Image load -/

theorem imageFits_iff (data : List Byte) : imageFits data = true ↔ data.length ≤ 65536 := decide_eq_true_iff

/-- An image that fits is placed; the host operation completes. -/
theorem load_fits (s : State) {data : List Byte} (h : data.length ≤ 65536) :
    s.load data = .next { s with mem := s.mem.loadAt 0 data } := by
  rw [State.load, if_pos ((imageFits_iff data).mpr h)]

/-- An image that does not fit is LoadError. -/
theorem load_too_long (s : State) {data : List Byte} (h : 65536 < data.length) : s.load data = .fault .loadError := by
  rw [State.load, if_neg fun hf => by have := (imageFits_iff data).mp hf; omega]
  rfl

/-! ### Fetching -/

theorem bytesFrom_length (s : State) (a : Word) (n : Nat) : (s.bytesFrom a n).length = n := by
  induction n generalizing a with
  | zero => rfl
  | succ n ih => simp [State.bytesFrom, ih]

/-- What is fetched when the first byte announces an operand. -/
theorem instrBytes_long {s : State} (h : announcesOperand (s.cell s.ip) = true) :
    s.instrBytes = [s.cell s.ip, s.cell (s.ip + 1#16), s.cell (s.ip + 1#16 + 1#16)] := by
  rw [State.instrBytes, if_pos (by exact h)]
  rfl

/-- What is fetched when it does not. -/
theorem instrBytes_short {s : State} (h : announcesOperand (s.cell s.ip) = false) : s.instrBytes = [s.cell s.ip] := by
  rw [State.instrBytes, if_neg (by rw [State.fetch, h]; simp)]
  rfl

/-- The fetched bytes always decode, and nothing is left over (`30_encoding.md` R56). -/
theorem decode_instrBytes (s : State) :
    ∃ i, decode s.instrBytes = .ok (i, []) ∧ s.instrBytes.length = i.length := by
  have hsome := rowOf_opcodeMap_isSome (s.fetch s.ip)
  obtain ⟨row, hrow⟩ := Option.isSome_iff_exists.mp hsome
  let a := Reg.ofSelector (regAField (s.fetch s.ip))
  let b := Reg.ofSelector (regBField (s.fetch s.ip))
  by_cases h : row.takesOperand = true
  · refine ⟨row.build a b (s.fetch (s.ip + 1#16) ++ s.fetch (s.ip + 1#16 + 1#16)), ?_, ?_⟩ <;>
      simp [State.instrBytes, announcesOperand, hrow, h, State.bytesFrom, decode, decodeWith, Instr.length, a, b]
  · refine ⟨row.build a b 0#16, ?_, ?_⟩ <;>
      simp [State.instrBytes, announcesOperand, hrow, h, State.bytesFrom, decode, decodeWith, Instr.length, a, b]

/-- A step of a core that is not halted runs the instruction its bytes decode to. -/
theorem step_current {s : State} (h : s.halted = false) :
    ∃ i, s.current? = some i ∧ decode s.instrBytes = .ok (i, []) ∧ step s = exec i s := by
  obtain ⟨i, hd, -⟩ := decode_instrBytes s
  exact ⟨i, by simp [State.current?, h, hd], hd, by simp [step, h, hd]⟩

theorem step_halted {s : State} (h : s.halted = true) : step s = .next s := by
  simp [step, h]

/-- No instruction is without a meaning. -/
theorem exec_not_refused (i : Instr) (s : State) (r : Refusal) : exec i s ≠ .refused r := by
  cases i with
  | load a addr =>
    by_cases h : addr = Config.devAddr
    · subst h
      rcases memRead_device s with ⟨h, -⟩ | ⟨rest, h, -⟩ | ⟨e, b, rest, h, hb, -⟩
      · simp [exec, execLoad_waiting h]
      · simp [exec, execLoad_abort h]
      · simp [exec, execLoad_event h hb]
    · simp [exec, execLoad_storage s h]
  | stor a addr => simp [exec, execStor_eq]
  | _ =>
    simp [exec, execHalt, execRet, execShl, execShr, execRol, execRor, execNand, execAnd, execOr, execXor,
      execBreq, execBrne, execCreq, execCrne, updateReg_eq, combineRegs_eq, branchIf_eq, callIf_eq]

end Sys2Proof.Machine
end

