-- ==== Sys2Proof/Laws/PerInstr.lean ====
section
/-! SUPPORT. Facts about an instruction as syntax, one lemma per constructor. Family `Shape`: the default map numbers
it, and its encoding is as long as its format says, first byte first. -/

namespace Sys2Proof.Laws.Shape

/-- The instruction has a number in the default map, and its canonical encoding has the length of its format. -/
def Statement (i : Instr) : Prop :=
  i.wf opcodeMap = true ∧ (encode i).length = i.length ∧ i.operand?.isSome = i.mnemonic.takesOperand

theorem halt : Statement .halt := ⟨rfl, rfl, rfl⟩

theorem ret : Statement .ret := ⟨rfl, rfl, rfl⟩

theorem shl (a : Reg) : Statement (.shl a) := ⟨rfl, rfl, rfl⟩

theorem shr (a : Reg) : Statement (.shr a) := ⟨rfl, rfl, rfl⟩

theorem rol (a : Reg) : Statement (.rol a) := ⟨rfl, rfl, rfl⟩

theorem ror (a : Reg) : Statement (.ror a) := ⟨rfl, rfl, rfl⟩

theorem nand (a b : Reg) : Statement (.nand a b) := ⟨rfl, rfl, rfl⟩

theorem and (a b : Reg) : Statement (.and a b) := ⟨rfl, rfl, rfl⟩

theorem or (a b : Reg) : Statement (.or a b) := ⟨rfl, rfl, rfl⟩

theorem xor (a b : Reg) : Statement (.xor a b) := ⟨rfl, rfl, rfl⟩

theorem load (a : Reg) (addr : Word) : Statement (.load a addr) := ⟨rfl, rfl, rfl⟩

theorem stor (a : Reg) (addr : Word) : Statement (.stor a addr) := ⟨rfl, rfl, rfl⟩

theorem breq (a b : Reg) (addr : Word) : Statement (.breq a b addr) := ⟨rfl, rfl, rfl⟩

theorem brne (a b : Reg) (addr : Word) : Statement (.brne a b addr) := ⟨rfl, rfl, rfl⟩

theorem creq (a b : Reg) (addr : Word) : Statement (.creq a b addr) := ⟨rfl, rfl, rfl⟩

theorem crne (a b : Reg) (addr : Word) : Statement (.crne a b addr) := ⟨rfl, rfl, rfl⟩

end Sys2Proof.Laws.Shape
end

