-- ==== Sys2Proof/Tests/Slice0.lean ====
section
/-! SUPPORT. The model's own tests. Expected values come from the encodings of `30_encoding.md` and the vectors of
`95_test_vectors.md`, named in each comment; the last part shows, for each statement with hypotheses, values that meet
them all. -/

namespace Sys2Proof.Tests

open Sys2Proof.Machine Sys2Proof.Claims

/-! ### WellFormed: each check refuses an ill-formed term -/

/-- A map that gives one number twice. -/
theorem test_map_repeat_refused :
    OpcodeMap.bijective [.HALT, .HALT, .SHL, .SHR, .ROL, .ROR, .NAND, .AND, .OR, .XOR, .LOAD, .STOR, .BREQ, .BRNE,
      .CREQ, .CRNE] = false := by decide

/-- A map that leaves numbers without a mnemonic. -/
theorem test_map_short_refused : OpcodeMap.bijective [.HALT, .RET] = false := by decide

/-- A map with LOAD below XOR breaks R54 (ii). -/
theorem test_map_order_refused :
    OpcodeMap.wf [.HALT, .RET, .SHL, .SHR, .ROL, .ROR, .NAND, .AND, .OR, .LOAD, .XOR, .STOR, .BREQ, .BRNE,
      .CREQ, .CRNE] = false := by decide

/-- An instruction whose mnemonic the map does not number. -/
theorem test_instr_without_number_refused : Instr.wf [.HALT, .RET] (.shl .r0) = false := by decide

/-- V-LD LD3: an image of 65537 bytes does not fit. -/
theorem test_long_image_refused : imageFits (List.replicate 65537 0x00#8) = false := by
  simp only [imageFits, List.length_replicate, Config.memSize]; decide

/-! ### Decoding: one word per constructor, written out bit by bit from R50, R51, R54 -/

/-- 0000 aabb, low nibble ignored (V-ENC E2). -/
theorem test_decode_halt : decodeTableWord 8 0b00001111 = some .halt := by decide
/-- 0001 aabb (E3). -/
theorem test_decode_ret : decodeTableWord 8 0b00011100 = some .ret := by decide
/-- 0010 aabb, reg_b ignored (E4). -/
theorem test_decode_shl : decodeTableWord 8 0b00101110 = some (.shl .r3) := by decide
theorem test_decode_shr : decodeTableWord 8 0b00110100 = some (.shr .r1) := by decide
theorem test_decode_rol : decodeTableWord 8 0b01001000 = some (.rol .r2) := by decide
theorem test_decode_ror : decodeTableWord 8 0b01011100 = some (.ror .r3) := by decide
theorem test_decode_nand : decodeTableWord 8 0b01101100 = some (.nand .r3 .r0) := by decide
theorem test_decode_and : decodeTableWord 8 0b01110001 = some (.and .r0 .r1) := by decide
theorem test_decode_or : decodeTableWord 8 0b10001011 = some (.or .r2 .r3) := by decide
theorem test_decode_xor : decodeTableWord 8 0b10011011 = some (.xor .r2 .r3) := by decide
/-- 1010 aabb, addr[15:8], addr[7:0]; in a table word the second byte is bits 15..8. reg_b ignored (E8). -/
theorem test_decode_load : decodeTableWord 24 0x3412AF = some (.load .r3 0x1234#16) := by decide
theorem test_decode_stor : decodeTableWord 24 0x0020B7 = some (.stor .r1 0x2000#16) := by decide
theorem test_decode_breq : decodeTableWord 24 0x1000C1 = some (.breq .r0 .r1 0x0010#16) := by decide
theorem test_decode_brne : decodeTableWord 24 0x0600D1 = some (.brne .r0 .r1 0x0006#16) := by decide
theorem test_decode_creq : decodeTableWord 24 0x0B00E0 = some (.creq .r0 .r0 0x000B#16) := by decide
theorem test_decode_crne : decodeTableWord 24 0x3412FB = some (.crne .r2 .r3 0x1234#16) := by decide

/-- A table row of 8 bits for a format L instruction: its operand bytes are zero. -/
theorem test_decode_short_table_word : decodeTableWord 8 0xA4 = some (.load .r1 0x0000#16) := by decide

/-- A cut operand is refused by name. -/
theorem test_decode_truncated : decode [0xA0#8, 0x00#8] = .error .truncated := by rfl

/-- An opcode a map does not number is refused by name (U3). -/
theorem test_decode_unassigned : decodeWith [.HALT] [0x10#8] = .error (.unassigned 0x1#4) := by rfl

/-! ### Canonical bytes (R61) -/

theorem test_encode_xor : encode (.xor .r2 .r3) = [0x9B#8] := by decide
theorem test_encode_stor : encode (.stor .r0 0xFFFF#16) = [0xB0#8, 0xFF#8, 0xFF#8] := by decide
theorem test_encode_crne : encode (.crne .r2 .r3 0x1234#16) = [0xFB#8, 0x12#8, 0x34#8] := by decide

/-! ### One step each (`95_test_vectors.md` part 2) -/

/-- The reset state with `ip` at an address and these bytes there. -/
def at_ (ip : Word) (bytes : List Byte) : State :=
  ({ State.reset with ip := ip } : State).placeBytes ip bytes

/-- The next state of an outcome. -/
def nextOf : Result → Option State
  | .next s => some s
  | .fault _ => none
  | .refused _ => none

/-- The fault of an outcome. -/
def faultOf : Result → Option Fault
  | .fault c => some c
  | .next _ => none
  | .refused _ => none

/-- What a test looks at: registers, `ip`, `rp`. -/
def view (s : State) : List Byte × Word × Word := ([s.r0, s.r1, s.r2, s.r3], s.ip, s.rp)

/-- V-HR HR2. -/
theorem test_halt_hr2 :
    (nextOf (step { at_ 0x0006#16 [0x0F#8] with r0 := 1, r1 := 2, r2 := 3, r3 := 4, rp := 0x1234 })).map
      (fun s => (view s, s.halted)) = some (([1, 2, 3, 4], 0x0007, 0x1234), true) := by decide

/-- V-HR HR3: HALT at the top of memory wraps. -/
theorem test_halt_hr3 : (nextOf (step (at_ 0xFFFF#16 [0x00#8]))).map (fun s => (s.ip, s.halted)) = some (0x0000, true) := by
  decide

/-- V-HR HR4: a step while halted. -/
theorem test_halted_hr4 :
    (nextOf (step { at_ 0x0007#16 [0x24#8] with r1 := 0x81, halted := true })).map view =
      some ([0, 0x81, 0, 0], 0x0007, 0x0000) := by decide

/-- V-HR HR5. -/
theorem test_ret_hr5 :
    (nextOf (step { at_ 0x000D#16 [0x10#8] with rp := 0x0006 })).map view = some ([0, 0, 0, 0], 0x0006, 0x0006) := by decide

/-- V-SH SH2: only r1 changes, reg_b ignored. -/
theorem test_shl_sh2 :
    (nextOf (step { at_ 0x0010#16 [0x27#8] with r0 := 0x11, r1 := 0x81, r2 := 0x33, r3 := 0x44 })).map view =
      some ([0x11, 0x02, 0x33, 0x44], 0x0011, 0x0000) := by decide

/-- V-SH SH5: logical. -/
theorem test_shr_sh5 :
    (nextOf (step { at_ 0x0010#16 [0x30#8] with r0 := 0x81 })).map view = some ([0x40, 0, 0, 0], 0x0011, 0) := by decide

/-- V-SH SH4. -/
theorem test_rol_sh4 :
    (nextOf (step { at_ 0x0010#16 [0x48#8] with r2 := 0x80 })).map view = some ([0, 0, 0x01, 0], 0x0011, 0) := by decide

/-- V-SH SH3. -/
theorem test_ror_sh3 :
    (nextOf (step { at_ 0x0010#16 [0x5C#8] with r3 := 0x01 })).map view = some ([0, 0, 0, 0x80], 0x0011, 0) := by decide

/-- V-SH, the row of 0xA5. -/
theorem test_shift_row_A5 : (shl1 0xA5, shr1 0xA5, rol1 0xA5, ror1 0xA5) = (0x4A, 0x52, 0x4B, 0xD2) := by decide

/-- V-LG LG7: NAND r3,r0. -/
theorem test_nand_lg7 :
    (nextOf (step { at_ 0 [0x6C#8] with r3 := 0x0F, r0 := 0xFF })).map view = some ([0xFF, 0, 0, 0xF0], 1, 0) := by decide

/-- V-LG LG2: the destination is reg_a. -/
theorem test_and_lg2 :
    (nextOf (step { at_ 0 [0x74#8] with r0 := 0xF0, r1 := 0x3C })).map view = some ([0xF0, 0x30, 0, 0], 1, 0) := by decide

/-- V-LG LG6. -/
theorem test_or_lg6 :
    (nextOf (step { at_ 0 [0x8B#8] with r3 := 0x41 })).map view = some ([0, 0, 0x41, 0x41], 1, 0) := by decide

/-- V-LG LG4. -/
theorem test_xor_lg4 :
    (nextOf (step { at_ 0 [0x9A#8] with r2 := 0x77 })).map view = some ([0, 0, 0, 0], 1, 0) := by decide

/-- V-LG, the row of 0xF0, 0x3C. -/
theorem test_logic_row_F0_3C :
    (nand8 0xF0 0x3C, and8 0xF0 0x3C, or8 0xF0 0x3C, xor8 0xF0 0x3C) = (0xCF, 0x30, 0xFC, 0xCC) := by decide

/-- V-LS LS3: a LOAD may read its own first byte. -/
theorem test_load_ls3 :
    (nextOf (step (at_ 0 [0xA4#8, 0x00#8, 0x00#8]))).map view = some ([0, 0xA4, 0, 0], 3, 0) := by decide

/-- V-LS LS6: a device read consumes one event, echoes it, and never reads the cell. -/
theorem test_load_ls6 :
    (nextOf (step { (at_ 0 [0xA0#8, 0xFF#8, 0xFF#8]).setCell 0xFFFF 0x55 with input := [.char 0x78, .char 0x79] })).map
      (fun s => (s.r0, s.input, s.output, s.ip)) = some (0x78, [.char 0x79], [0x78], 3) := by decide

/-- V-LS LS10: `Abort` is fatal. -/
theorem test_load_ls10 :
    faultOf (step { at_ 0 [0xA0#8, 0xFF#8, 0xFF#8] with input := [.abort, .char 0x41] }) =
      some .deviceErrorInputAbort := by decide

/-- V-LS LS11: no input, no step. -/
theorem test_load_ls11 :
    nextOf (step (at_ 0 [0xA0#8, 0xFF#8, 0xFF#8])) = some (at_ 0 [0xA0#8, 0xFF#8, 0xFF#8]) := by decide

/-- V-LS LS5: a device write does not touch the cell. -/
theorem test_stor_ls5 :
    (nextOf (step { (at_ 3 [0xB0#8, 0xFF#8, 0xFF#8]).setCell 0xFFFF 0x55 with r0 := 0x41 })).map
      (fun s => (s.output, s.cell 0xFFFF, s.ip)) = some ([0x41], 0x55, 6) := by decide

/-- V-LS LS12: a STOR over its own first byte; the next fetch there sees RET. -/
theorem test_stor_ls12 :
    (nextOf (step { at_ 0 [0xB0#8, 0x00#8, 0x00#8] with r0 := 0x10 })).map (fun s => (s.cell 0, s.ip)) =
      some (0x10, 3) := by decide

/-- V-LS LS13: with an OUT_VALID that excludes the byte, the store to the port is fatal. -/
theorem test_stor_ls13 :
    faultOf (storeWith (fun v => v != 0x41) .r0 0xFFFF { State.reset with r0 := 0x41 }) =
      some .deviceErrorInvalidOutput := by decide

/-- V-BR BR8: all eight bits are compared. -/
theorem test_breq_br8 :
    (nextOf (step { at_ 0x0100#16 [0xC1#8, 0x02#8, 0x00#8] with r0 := 0x01, r1 := 0x81 })).map (·.ip) = some 0x0103 := by
  decide

/-- V-BR BR1. -/
theorem test_breq_br1 : (nextOf (step (at_ 4 [0xC1#8, 0x00#8, 0x10#8]))).map (·.ip) = some 0x0010 := by decide

/-- V-BR BR4. -/
theorem test_brne_br4 :
    (nextOf (step { at_ 8 [0xD1#8, 0x00#8, 0x06#8] with r0 := 0x40 })).map (·.ip) = some 0x0006 := by decide

/-- V-BR BR6. -/
theorem test_brne_br6 : (nextOf (step (at_ 8 [0xDF#8, 0xFF#8, 0xFF#8]))).map (·.ip) = some 0x000B := by decide

/-- V-CL CL5: the return address wraps, and the operand's low byte is the backing cell at 0xFFFF. -/
theorem test_creq_cl5 :
    (nextOf (step { at_ 0xFFFD#16 [0xE0#8, 0x12#8, 0x34#8] with rp := 0x0055 })).map (fun s => (s.rp, s.ip)) =
      some (0x0000, 0x1234) := by decide

/-- V-CL CL2: not taken. -/
theorem test_creq_cl2 :
    (nextOf (step { at_ 3 [0xE1#8, 0x00#8, 0x0B#8] with r0 := 1, r1 := 2, rp := 0x0055 })).map (fun s => (s.rp, s.ip)) =
      some (0x0055, 0x0006) := by decide

/-- V-CL CL3. -/
theorem test_crne_cl3 :
    (nextOf (step { at_ 0x0100#16 [0xFB#8, 0x12#8, 0x34#8] with r2 := 1, rp := 6 })).map (fun s => (s.rp, s.ip)) =
      some (0x0103, 0x1234) := by decide

/-- V-CL CL6. -/
theorem test_crne_cl6 :
    (nextOf (step { at_ 0x0040#16 [0xF5#8, 0x00#8, 0x80#8] with rp := 7 })).map (fun s => (s.rp, s.ip)) =
      some (7, 0x0043) := by decide

/-- V-ENC W2: the operand straddles the wrap. -/
theorem test_wrap_w2 :
    (nextOf (step ((at_ 0xFFFE#16 [0xA4#8, 0x00#8, 0x02#8]).setCell 2 0x99))).map (fun s => (s.r1, s.ip, s.output)) =
      some (0x99, 1, []) := by decide

/-- V-LD LD1: nothing loaded, the first step executes HALT. -/
theorem test_reset_step_ld1 : (nextOf (step State.reset)).map (fun s => (s.ip, s.halted)) = some (1, true) := by decide

/-- `95_test_vectors.md` P1: the launch state runs LOAD from the port first. -/
theorem test_launch_p1 :
    ((nextOf (launch [0xA0, 0xFF, 0xFF, 0xB0, 0xFF, 0xFF, 0x00] [.escape])).bind fun s => nextOf (step s)).map
      (fun s => (s.r0, s.output, s.ip)) = some (0x1B, [0x1B], 3) := by decide

/-- A word placed where the next step fetches is the one that runs. -/
theorem test_withFetchWord :
    (nextOf (step (State.reset.withFetchWord 24 0x0B00E0))).map (fun s => (s.rp, s.ip)) = some (3, 0x000B) := by decide

/-- A second load is no move; neither is a step after a fatal outcome (R128, R102). -/
theorem test_no_second_load : Session.move (.load [0x10]) (.live .started State.reset) = none := by decide

theorem test_no_step_after_fatal : Session.move .step (.fatal .loadError [] []) = none := by decide

/-! ### Witnesses: values that meet the hypotheses of each statement -/

theorem witness_DecodingAnEncodedInstructionGivesItBack :
    opcodeMap.Nodup ∧ opcodeMap.length ≤ 16 ∧ Instr.wf opcodeMap (.crne .r3 .r3 0xFFFF#16) = true ∧
    Instr.wf [.CRNE] (.crne .r0 .r1 0x1234#16) = true := by decide

theorem witness_EncodingADecodedInstructionClearsOnlyIgnoredBits :
    decode [0xAF#8, 0x12#8, 0x34#8, 0x00#8] = .ok (.load .r3 0x1234#16, [0x00#8]) := by rfl

theorem witness_OpcodeAloneDecidesLength :
    (opcodeMap[(0xA0#8 : Byte).toNat / 16]? = some .LOAD ∧
      Mnemonic.LOAD ∈ [Mnemonic.LOAD, .STOR, .BREQ, .BRNE, .CREQ, .CRNE]) ∧
    (opcodeMap[(0x9F#8 : Byte).toNat / 16]? = some .XOR ∧
      Mnemonic.XOR ∉ [Mnemonic.LOAD, .STOR, .BREQ, .BRNE, .CREQ, .CRNE]) := by decide

theorem witness_OperandIsFetchedBigEndian : announcesOperand ((at_ 0xFFFE#16 [0xA0#8]).cell 0xFFFE#16) = true := by decide

theorem witness_RegisterFileReadsBackWrites : (0 < 4 ∧ 3 < 4) ∧ 4 ≤ 4 := by decide

theorem witness_CanonicalMemoriesAreExtensional :
    Memory.wf [(0, 0x01#8), (65535, 0xFF#8)] ∧
    ∀ x : Word, Memory.read [(0, 0x01#8), (65535, 0xFF#8)] x.toNat = Memory.read [(0, 0x01#8), (65535, 0xFF#8)] x.toNat :=
  ⟨by decide, fun _ => rfl⟩

theorem witness_StepRunsTheDecodedInstruction :
    (at_ 0xFFFE#16 [0xE0#8, 0x12#8, 0x34#8]).halted = false ∧
    decode ((at_ 0xFFFE#16 [0xE0#8, 0x12#8, 0x34#8]).bytesFrom 0xFFFE#16 3) = .ok (.creq .r0 .r0 0x1234#16, []) :=
  ⟨rfl, rfl⟩

theorem witness_HaltedCoreStaysAsItIs : ({ State.reset with halted := true } : State).halted = true := rfl

theorem witness_NextInstructionPointer :
    (∃ t, exec .ret State.reset = .next t) ∧
    (takenTarget State.reset (.breq .r0 .r0 9) = some 9 ∧ ∃ t, exec (.breq .r0 .r0 9) State.reset = .next t) ∧
    (takenTarget State.reset (.brne .r0 .r0 9) = none ∧ ∃ t, exec (.brne .r0 .r0 9) State.reset = .next t) ∧
    (takenCall State.reset (.creq .r0 .r1 9) = true ∧ ∃ t, exec (.creq .r0 .r1 9) State.reset = .next t) ∧
    (¬(readsPort (.load .r0 0xFFFF) = true ∧ ({ State.reset with input := [.noKey] } : State).input = []) ∧
      ∃ t, exec (.load .r0 0xFFFF) { State.reset with input := [.noKey] } = .next t) :=
  ⟨⟨_, rfl⟩, ⟨by decide, _, rfl⟩, ⟨by decide, _, rfl⟩, ⟨by decide, _, rfl⟩, by simp, _, rfl⟩

theorem witness_InstructionBytesWrapAtTheTop :
    announcesOperand ((at_ 0xFFFE#16 [0xB0#8]).cell 0xFFFE#16) = true ∧
    announcesOperand ((at_ 0xFFFF#16 [0xB0#8]).cell 0xFFFF#16) = true ∧
    announcesOperand ((at_ 0xFFFF#16 [0x24#8]).cell 0xFFFF#16) = false := by decide

theorem witness_RotatesHavePeriodEight :
    (Instr.rol .r0 = .rol .r0 ∨ Instr.rol .r0 = .ror .r0) ∧ 8 % 8 = 0 ∧
    ((Instr.ror .r3 = .rol .r3 ∧ Instr.rol .r3 = .ror .r3) ∨ (Instr.ror .r3 = .ror .r3 ∧ Instr.rol .r3 = .rol .r3)) := by
  decide

theorem witness_EightShiftsGiveZero : (Instr.shr .r1 = .shl .r1 ∨ Instr.shr .r1 = .shr .r1) ∧ 8 ≤ 8 := by decide

theorem witness_LoadFromStorageCopiesTheCell : (0x0000#16 : Word) ≠ 0xFFFF#16 ∧ (0xFFFE#16 : Word) ≠ 0xFFFF#16 := by decide

theorem witness_LoadFromThePortConsumesAndEchoes :
    ({ State.reset with input := [.escape, .abort] } : State).input = .escape :: [.abort] ∧
    inByte .escape = some 0x1B#8 := ⟨rfl, rfl⟩

theorem witness_LoadOfAbortIsFatal : ({ State.reset with input := [.abort] } : State).input = .abort :: [] := rfl

theorem witness_BlockedReadResumesWhenInputArrives :
    (at_ 0 [0xA4#8, 0xFF#8, 0xFF#8]).current? = some (.load .r1 0xFFFF#16) ∧
    Waiting (at_ 0 [0xA4#8, 0xFF#8, 0xFF#8]) ∧ inByte (.char 0xFF#8) = some 0xFF#8 :=
  ⟨by decide, ⟨⟨.r1, by decide⟩, rfl⟩, rfl⟩

theorem witness_DataWriteGoesToOneCellOrThePort :
    State.reset.mem.wf ∧ (0xFFFE#16 : Word) ≠ 0xFFFF#16 ∧ (fun v : Byte => v == 0#8) (State.reset.reg .r0) = true ∧
    (fun v : Byte => v != 0#8) (State.reset.reg .r0) = false := by decide

theorem witness_StorWritesTheCellOrEmits :
    State.reset.mem.wf ∧ effectiveAddr 0xFFFE#16 ≠ 0xFFFF#16 ∧ effectiveAddr 0xFFFF#16 = 0xFFFF#16 := by decide

theorem witness_StoredByteIsWhatTheNextFetchReads :
    State.reset.mem.wf ∧ (0x0000#16 : Word) ≠ 0xFFFF#16 ∧ ∃ t, exec (.stor .r0 0x0000#16) State.reset = .next t :=
  ⟨by decide, by decide, _, rfl⟩

theorem witness_RetAfterACallGoesPastTheCall :
    takenCall { State.reset with r0 := 1 } (.crne .r0 .r1 9) = true ∧
    ∃ t, exec (.crne .r0 .r1 9) { State.reset with r0 := 1 } = .next t ∧ t.rp = t.rp :=
  ⟨by decide, _, rfl, rfl⟩

/-- For each clause of the frame, an instruction it speaks about. -/
theorem witness_EveryInstructionKeepsToItsFrame :
    State.reset.mem.wf ∧ (∃ t, exec (.stor .r0 5) State.reset = .next t) ∧
    writtenReg (.load .r1 5) ≠ some .r0 ∧ takenCall State.reset (.crne .r0 .r0 9) = false ∧
    storedAddr (.stor .r0 5) ≠ some 6 ∧ storedAddr (.stor .r0 0xFFFF) ≠ some 0xFFFF ∧
    readsPort (.load .r0 0xFFFE) = false ∧ writesPort (.stor .r0 0xFFFE) = false ∧
    takenTarget State.reset (.stor .r0 5) = none :=
  ⟨by decide, ⟨_, rfl⟩, by decide, by decide, by decide, by decide, by decide, by decide, by decide⟩

theorem witness_UnreadRegistersHaveNoInfluence :
    (Reg.r2 ∉ readRegs (.xor .r0 .r1) ∧ writtenReg (.xor .r0 .r1) ≠ some .r2) ∧
    (Reg.r0 ∉ readRegs (.load .r0 5) ∧ writtenReg (.load .r0 5) = some .r0 ∧
      ¬(readsPort (.load .r0 5) = true ∧ State.reset.input = [])) := by decide

theorem witness_RpIsWrittenByTakenCallsAndReadByRet :
    (nextOf (step (at_ 0 [0xE0#8, 0x00#8, 0x09#8]))).map (·.rp) = some 3 ∧ Instr.creq .r0 .r0 9 ≠ .ret := by decide

theorem witness_RunEndsExactlyByHalt :
    (∃ t, step State.reset = .next t) ∧ State.reset.current? = some .halt := ⟨⟨_, rfl⟩, by decide⟩

theorem witness_PortAndStorageAreIsolated :
    State.reset.mem.wf ∧
    (nextOf (step { at_ 0 [0xB0#8, 0xFF#8, 0xFE#8] with r0 := 1 })).map (·.cell 0xFFFE) = some 1 ∧
    (nextOf (step { at_ 0 [0xB0#8, 0xFF#8, 0xFF#8] with r0 := 1 })).map (·.output) = some [1] := by decide

theorem witness_StepEmitsAndConsumesAtMostOne : ∃ t, step (at_ 0 [0xB0#8, 0xFF#8, 0xFF#8]) = .next t := ⟨_, rfl⟩

theorem witness_UnreadInputHasNoEffect :
    ({ State.reset with input := [.noKey] } : State).input ≠ [] := by decide

/-- The three bytes end at 0xFFFE, just below the port. -/
theorem witness_CellBehindThePortIsInvisible :
    (at_ 0xFFFC#16 [0xA0#8, 0xFF#8, 0xFF#8]).mem.wf ∧
    ∀ k < (at_ 0xFFFC#16 [0xA0#8, 0xFF#8, 0xFF#8]).instrBytes.length,
      (at_ 0xFFFC#16 [0xA0#8, 0xFF#8, 0xFF#8]).ip + BitVec.ofNat 16 k ≠ 0xFFFF#16 := by decide

theorem witness_StepKeepsMemoryCanonical :
    CanonicalState (at_ 0 [0xB0#8, 0x20#8, 0x00#8]) ∧ ∃ t, step (at_ 0 [0xB0#8, 0x20#8, 0x00#8]) = .next t :=
  ⟨by unfold CanonicalState; decide, _, rfl⟩

/-- Both sides of the boundary (V-LD LD2, LD3). -/
theorem witness_LoadPlacesTheImage :
    State.reset.mem.wf ∧ (List.replicate 65536 (0x77#8 : Byte)).length ≤ 65536 ∧
    65536 < (List.replicate 65537 (0x77#8 : Byte)).length :=
  ⟨by decide, by rw [List.length_replicate], by rw [List.length_replicate]; decide⟩

theorem witness_LaunchStateIsDetermined : ([0x10#8] : List Byte).length ≤ 65536 := by decide

theorem witness_EveryReachableSessionKeepsTheContract :
    (∃ s, Reachable (.live .started s)) ∧ ∃ c i o, Reachable (.fatal c i o) := by
  constructor
  · exact ⟨_, .move (.load [0x10#8]) .start rfl⟩
  · exact ⟨_, _, _, .move .step (.move (.deliver .abort) (.move (.load [0xA0#8, 0xFF#8, 0xFF#8]) .start rfl) rfl) rfl⟩

theorem witness_AllowedHostOperationsAreMoves : Session.start = .live .built State.reset := rfl

theorem witness_FatalStepEmitsNothing :
    step { at_ 0 [0xA0#8, 0xFF#8, 0xFF#8] with input := [.abort] } = .fault .deviceErrorInputAbort := by rfl

/-- The hypothesis of the first clause of EveryFirstByteDecodes on both sides of its boundary. -/
theorem witness_EveryFirstByteDecodes : 0xA0 ≤ (0xA0#8 : Byte).toNat ∧ ¬ 0xA0 ≤ (0x9F#8 : Byte).toNat := by decide

end Sys2Proof.Tests
end

section
/-! PROOFS. What an instruction that completes can have done, said once: `Effect` has one constructor per shape of
effect, and `exec_effect` ties it to `exec`. The frame of every instruction (`10_state.md` R24) is read off it, one lemma
per part of the state. -/

namespace Sys2Proof.Machine

open Sys2Proof.Claims

/-! ### The input left by a device read -/

/-- The state with what is left of the input after a device read (`20_memory.md` R32); `exec_effect` uses it. -/
def State.withInput (s : State) (rest : List InputEvent) : State :=
  { s with input := rest }

section
variable (s : State) (rest : List InputEvent)

@[simp] theorem withInput_ip : (s.withInput rest).ip = s.ip := rfl
@[simp] theorem withInput_rp : (s.withInput rest).rp = s.rp := rfl
@[simp] theorem withInput_halted : (s.withInput rest).halted = s.halted := rfl
@[simp] theorem withInput_mem : (s.withInput rest).mem = s.mem := rfl
@[simp] theorem withInput_input : (s.withInput rest).input = rest := rfl
@[simp] theorem withInput_output : (s.withInput rest).output = s.output := rfl
@[simp] theorem withInput_reg (r : Reg) : (s.withInput rest).reg r = s.reg r := by cases r <;> rfl
@[simp] theorem withInput_cell (a : Word) : (s.withInput rest).cell a = s.cell a := rfl

end

/-! ### The effect of an instruction -/

/-- What the instruction `i`, run from `s`, can leave behind. The value a register form writes is not part of it. -/
inductive Effect (s : State) : Instr → State → Prop where
  | halt : Effect s .halt s.pastS.setHalted
  | ret : Effect s .ret (s.pastS.setIp s.rp)
  | register {i : Instr} {a : Reg} (v : Byte) (hop : i.operand? = none) (hw : writtenReg i = some a) :
      Effect s i (s.pastS.setReg a v)
  | loadCell {a : Reg} {addr : Word} (haddr : addr ≠ Config.devAddr) :
      Effect s (.load a addr) (s.pastL.setReg a (s.cell addr))
  | loadWaiting {a : Reg} (hin : s.input = []) : Effect s (.load a Config.devAddr) s
  | loadEvent {a : Reg} {e : InputEvent} {b : Byte} {rest : List InputEvent} (hin : s.input = e :: rest)
      (hb : inByte e = some b) :
      Effect s (.load a Config.devAddr) (((s.pastL.withInput rest).emit b).setReg a b)
  | storCell {a : Reg} {addr : Word} (haddr : addr ≠ Config.devAddr) :
      Effect s (.stor a addr) (s.pastL.setCell addr (s.reg a))
  | storPort {a : Reg} : Effect s (.stor a Config.devAddr) (s.pastL.emit (s.reg a))
  | passOver {i : Instr} {addr : Word} (hop : i.operand? = some addr) (hgo : takenTarget s i = none)
      (hcall : takenCall s i = false) : Effect s i s.pastL
  | jump {i : Instr} {addr : Word} (hop : i.operand? = some addr) (hgo : takenTarget s i = some addr)
      (hcall : takenCall s i = false) : Effect s i (s.pastL.setIp addr)
  | call {i : Instr} {addr : Word} (hop : i.operand? = some addr) (hgo : takenTarget s i = some addr)
      (hcall : takenCall s i = true) : Effect s i ((s.pastL.setRp s.pastL.ip).setIp addr)

section
variable {i : Instr} {s t : State} {a b : Reg} {addr : Word} {c : Bool}

theorem updateReg_effect {f : Byte → Byte} (hop : i.operand? = none) (hw : writtenReg i = some a)
    (h : updateReg a f s = .next t) : Effect s i t := by
  cases h
  exact .register _ hop hw

theorem combineRegs_effect {f : Byte → Byte → Byte} (hop : i.operand? = none) (hw : writtenReg i = some a)
    (h : combineRegs a b f s = .next t) : Effect s i t := by
  cases h
  exact .register _ hop hw

theorem execLoad_effect (h : execLoad a addr s = .next t) : Effect s (.load a addr) t := by
  by_cases haddr : addr = Config.devAddr
  · subst haddr
    rcases memRead_device s with ⟨hin, -⟩ | ⟨rest, hin, -⟩ | ⟨e, b, rest, hin, hb, -⟩
    · cases (execLoad_waiting hin).symm.trans h
      exact .loadWaiting hin
    · cases (execLoad_abort hin).symm.trans h
    · cases (execLoad_event hin hb).symm.trans h
      exact .loadEvent hin hb
  · cases (execLoad_storage s haddr).symm.trans h
    exact .loadCell haddr

theorem execStor_effect (h : execStor a addr s = .next t) : Effect s (.stor a addr) t := by
  by_cases haddr : addr = Config.devAddr
  · subst haddr
    rw [execStor_eq, if_pos rfl] at h
    cases h
    exact .storPort
  · rw [execStor_eq, if_neg haddr] at h
    cases h
    exact .storCell haddr

/-- `c` is the condition of the branch `i`. -/
theorem branchIf_effect (hop : i.operand? = some addr) (hgo : takenTarget s i = if c then some addr else none)
    (hcall : takenCall s i = false) (h : branchIf c addr s = .next t) : Effect s i t := by
  cases c <;> cases h
  · exact .passOver hop hgo hcall
  · exact .jump hop hgo hcall

/-- `c` is the condition of the call `i`. -/
theorem callIf_effect (hop : i.operand? = some addr) (hgo : takenTarget s i = if c then some addr else none)
    (hcall : takenCall s i = c) (h : callIf c addr s = .next t) : Effect s i t := by
  cases c <;> cases h
  · exact .passOver hop hgo hcall
  · exact .call hop hgo hcall

end

/-- A completed instruction did one of the things `Effect` lists. -/
theorem exec_effect {i : Instr} {s t : State} (h : exec i s = .next t) : Effect s i t := by
  cases i with
  | halt => cases h; exact .halt
  | ret => cases h; exact .ret
  | shl a | shr a | rol a | ror a => exact updateReg_effect rfl rfl h
  | nand a b | and a b | or a b | xor a b => exact combineRegs_effect rfl rfl h
  | load a addr => exact execLoad_effect h
  | stor a addr => exact execStor_effect h
  | breq a b addr | brne a b addr =>
    refine branchIf_effect rfl ?_ rfl h
    by_cases heq : s.reg a = s.reg b <;> simp [takenTarget, State.regsEqual, heq]
  | creq a b addr | crne a b addr =>
    refine callIf_effect rfl ?_ ?_ h <;>
      by_cases heq : s.reg a = s.reg b <;> simp [takenTarget, takenCall, State.regsEqual, bne, heq]

/-! ### The frame, one part of the state at a time -/

/-- Format L has an operand, format S has none (`30_encoding.md` R50). -/
theorem length_eq_of_operand? (i : Instr) : i.length = if i.operand?.isSome then 3 else 1 := by
  cases i <;> rfl

/-- `ip + n` as the statements write it (`00_scope.md` R8). -/
theorem ipPast_of_ip_eq {n : Nat} {s t : State} (h : t.ip = s.ip + BitVec.ofNat 16 n) : IpPast n s t := by
  simp [IpPast, h, BitVec.toNat_add]

section
variable {i : Instr} {s t : State}

theorem ipPast_of_no_operand (hop : i.operand? = none) (h : t.ip = s.ip + 1#16) : IpPast i.length s t := by
  rw [length_eq_of_operand?, hop]
  exact ipPast_of_ip_eq h

theorem ipPast_of_operand {addr : Word} (hop : i.operand? = some addr) (h : t.ip = s.ip + 3#16) :
    IpPast i.length s t := by
  rw [length_eq_of_operand?, hop]
  exact ipPast_of_ip_eq h

theorem setReg_reg_unwritten {a r : Reg} (u : State) (v : Byte) (hw : writtenReg i = some a)
    (hr : writtenReg i ≠ some r) : (u.setReg a v).reg r = u.reg r :=
  setReg_reg_other u a r v fun e => hr (e ▸ hw)

theorem Effect.keeps_reg {r : Reg} (h : Effect s i t) (hr : writtenReg i ≠ some r) : t.reg r = s.reg r := by
  cases h with
  | register v _ hw => rw [setReg_reg_unwritten _ _ hw hr, pastS_reg]
  | loadCell _ => rw [setReg_reg_unwritten _ _ rfl hr, pastL_reg]
  | loadEvent _ _ => rw [setReg_reg_unwritten _ _ rfl hr, emit_reg, withInput_reg, pastL_reg]
  | _ => simp

theorem Effect.keeps_rp (h : Effect s i t) (hc : takenCall s i = false) : t.rp = s.rp := by
  cases h with
  | call _ _ hcall => cases hcall.symm.trans hc
  | _ => simp

theorem Effect.keeps_halted (h : Effect s i t) (hi : i ≠ .halt) : t.halted = s.halted := by
  cases h with
  | halt => exact absurd rfl hi
  | _ => simp

theorem Effect.keeps_cell {x : Word} (h : Effect s i t) (hwf : s.mem.wf) (hx : storedAddr i ≠ some x) :
    t.cell x = s.cell x := by
  cases h with
  | @storCell a addr haddr =>
    have hne : x ≠ addr := fun e => hx (by simp [storedAddr, effectiveAddr, haddr, e])
    rw [setCell_cell_other (s := s.pastL) hwf _ hne, pastL_cell]
  | _ => simp

theorem Effect.keeps_input (h : Effect s i t) (hr : readsPort i = false) : t.input = s.input := by
  cases h with
  | loadEvent _ _ => cases hr
  | _ => simp

theorem Effect.keeps_output (h : Effect s i t) (hr : readsPort i = false) (hw : writesPort i = false) :
    t.output = s.output := by
  cases h with
  | loadEvent _ _ => cases hr
  | storPort => cases hw
  | _ => simp

/-- An instruction that happened and does not redirect moves `ip` past its own bytes (`10_state.md` R13). -/
theorem Effect.ipPast (h : Effect s i t) (hwait : ¬(readsPort i = true ∧ s.input = [])) (hret : i ≠ .ret)
    (hgo : takenTarget s i = none) : IpPast i.length s t := by
  cases h with
  | ret => exact absurd rfl hret
  | loadWaiting hin => exact absurd ⟨rfl, hin⟩ hwait
  | jump _ htaken _ | call _ htaken _ => cases htaken.symm.trans hgo
  | halt => exact ipPast_of_no_operand rfl (by simp)
  | register _ hop _ => exact ipPast_of_no_operand hop (by simp)
  | loadCell _ | loadEvent _ _ | storCell _ | storPort => exact ipPast_of_operand rfl (by simp)
  | passOver hop _ _ => exact ipPast_of_operand hop (by simp)

end

/-- Settles O41: each clause is what the effect of a completed instruction keeps. -/
theorem everyInstructionKeepsToItsFrame : Obligations.EveryInstructionKeepsToItsFrame := by
  intro i s t hwf h
  have he : Effect s i t := exec_effect h
  exact ⟨fun _ => he.keeps_reg, he.keeps_rp, he.keeps_halted, fun _ => he.keeps_cell hwf, he.keeps_input,
    he.keeps_output, length_eq_of_operand? i, he.ipPast⟩

end Sys2Proof.Machine
end

section
/-! PROOFS. The return pointer (`10_state.md` R14): only a taken call writes it, and no instruction but RET depends on
it. Each shared operation is shown to commute with another value in `rp`. -/

namespace Sys2Proof.Machine

open Sys2Proof.Claims

/-- A taken call always completes, with this state (`45_call.md` R95, R96). -/
theorem exec_takenCall {i : Instr} {s : State} (h : takenCall s i = true) :
    ∃ addr, i.operand? = some addr ∧ exec i s = .next ((s.setRp (s.ip + 3#16)).setIp addr) := by
  cases i with
  | creq a b addr | crne a b addr =>
    refine ⟨addr, rfl, (callIf_eq _ addr s).trans ?_⟩
    rw [if_pos (by simpa [takenCall, State.regsEqual] using h)]
  | _ => cases h

/-! ### Another value in `rp` -/

section
variable (s : State) (v : Word)

theorem setRp_setRp (w : Word) : (s.setRp v).setRp w = s.setRp w := rfl

theorem setRp_setReg (r : Reg) (x : Byte) : (s.setRp v).setReg r x = (s.setReg r x).setRp v := by cases r <;> rfl

theorem takenCall_setRp (i : Instr) : takenCall (s.setRp v) i = takenCall s i := by
  cases i <;> simp [takenCall]

theorem regsEqual_setRp (a b : Reg) : (s.setRp v).pastL.regsEqual a b = s.pastL.regsEqual a b := by
  simp [State.regsEqual]

theorem updateReg_setRp (a : Reg) (f : Byte → Byte) :
    updateReg a f (s.setRp v) = mapNext (·.setRp v) (updateReg a f s) := by
  simp only [updateReg_eq, setRp_reg, mapNext]
  exact congrArg _ (setRp_setReg s.pastS v a _)

theorem combineRegs_setRp (a b : Reg) (f : Byte → Byte → Byte) :
    combineRegs a b f (s.setRp v) = mapNext (·.setRp v) (combineRegs a b f s) := by
  simp only [combineRegs_eq, setRp_reg, mapNext]
  exact congrArg _ (setRp_setReg s.pastS v a _)

theorem branchIf_setRp (c : Bool) (addr : Word) :
    branchIf c addr (s.setRp v) = mapNext (·.setRp v) (branchIf c addr s) := by
  cases c <;> rfl

/-- A call whose condition fails leaves `rp` alone. -/
theorem callIf_setRp {c : Bool} (addr : Word) (hc : c = false) :
    callIf c addr (s.setRp v) = mapNext (·.setRp v) (callIf c addr s) := by
  subst hc
  rfl

theorem execStor_setRp (a : Reg) (addr : Word) :
    execStor a addr (s.setRp v) = mapNext (·.setRp v) (execStor a addr s) := by
  simp only [execStor_eq, setRp_reg, mapNext]
  split <;> rfl

theorem execLoad_setRp (a : Reg) (addr : Word) :
    execLoad a addr (s.setRp v) = mapNext (·.setRp v) (execLoad a addr s) := by
  by_cases haddr : addr = Config.devAddr
  · subst haddr
    rcases memRead_device s with ⟨hin, -⟩ | ⟨rest, hin, -⟩ | ⟨e, b, rest, hin, hb, -⟩
    · rw [execLoad_waiting hin, execLoad_waiting (s := s.setRp v) hin, mapNext]
    · rw [execLoad_abort hin, execLoad_abort (s := s.setRp v) hin, mapNext]
    · rw [execLoad_event hin hb, execLoad_event (s := s.setRp v) hin hb]
      exact congrArg _ (setRp_setReg ((s.pastL.withInput rest).emit b) v a b)
  · rw [execLoad_storage _ haddr, execLoad_storage _ haddr]
    exact congrArg _ (setRp_setReg s.pastL v a _)

/-- An instruction that is neither RET nor a taken call carries `rp` along unread. -/
theorem exec_setRp {i : Instr} (hret : i ≠ .ret) (hcall : takenCall s i = false) :
    exec i (s.setRp v) = mapNext (·.setRp v) (exec i s) := by
  cases i with
  | halt => rfl
  | ret => exact absurd rfl hret
  | shl a | shr a | rol a | ror a => exact updateReg_setRp s v a _
  | nand a b | and a b | or a b | xor a b => exact combineRegs_setRp s v a b _
  | load a addr => exact execLoad_setRp s v a addr
  | stor a addr => exact execStor_setRp s v a addr
  | breq a b addr | brne a b addr =>
    simp only [exec, execBreq, execBrne, regsEqual_setRp]
    exact branchIf_setRp s v _ addr
  | creq a b addr | crne a b addr =>
    simp only [exec, execCreq, execCrne, regsEqual_setRp]
    exact callIf_setRp s v addr (by simpa [takenCall, State.regsEqual] using hcall)

end

/-- Settles O43: a change of `rp` is outside the frame of everything but a taken call, a taken call overwrites `rp`, and
every other instruction but RET commutes with another `rp`. -/
theorem rpIsWrittenByTakenCallsAndReadByRet : Obligations.RpIsWrittenByTakenCallsAndReadByRet := by
  refine ⟨fun s t h hrp => ?_, fun i s v hret => ?_, fun s => ⟨_, rfl, rfl, rfl⟩⟩
  · cases hh : s.halted with
    | true =>
      cases (step_halted hh).symm.trans h
      exact absurd rfl hrp
    | false =>
      obtain ⟨i, hcur, -, hstep⟩ := step_current hh
      have hexec : exec i s = .next t := hstep.symm.trans h
      have hcall : takenCall s i = true :=
        eq_true_of_ne_false fun hc => hrp ((exec_effect hexec).keeps_rp hc)
      obtain ⟨addr, hop, hto⟩ := exec_takenCall hcall
      cases hto.symm.trans hexec
      exact ⟨i, hcur, hcall, by simp [BitVec.toNat_add], hop⟩
  · cases hcall : takenCall s i with
    | true =>
      obtain ⟨addr, hop, hto⟩ := exec_takenCall hcall
      obtain ⟨addr', hop', hto'⟩ := exec_takenCall ((takenCall_setRp s v i).trans hcall)
      cases hop.symm.trans hop'
      rw [hto, hto', setRp_ip, setRp_setRp, if_pos rfl]
    | false => simpa using exec_setRp s v hret hcall

end Sys2Proof.Machine
end

section
/-! PROOFS. The data write (`20_memory.md` R33): what a store leaves in the cells and in the streams, for every
OUT_VALID. -/

namespace Sys2Proof.Machine

open Sys2Proof.Claims

/-- What a write to storage leaves past the fetch: the byte in its cell, and all else in memory and streams alone. -/
theorem setCell_pastL_frame {s : State} (hwf : s.mem.wf) (addr : Word) (v : Byte) :
    (s.pastL.setCell addr v).cell addr = v ∧
    (∀ x, x ≠ addr → (s.pastL.setCell addr v).cell x = s.cell x) ∧
    SameStreams s (s.pastL.setCell addr v) :=
  ⟨setCell_cell_same (s := s.pastL) hwf addr v,
    fun _ hx => (setCell_cell_other (s := s.pastL) hwf v hx).trans (pastL_cell s _),
    ⟨rfl, rfl⟩⟩

/-- What a write to the port leaves past the fetch: one byte more in the output, and the input and the cells alone. -/
theorem emit_pastL_frame (s : State) (v : Byte) :
    (s.pastL.emit v).output = s.output ++ [v] ∧ (s.pastL.emit v).input = s.input ∧
    SameCells s (s.pastL.emit v) :=
  ⟨rfl, rfl, fun x => (emit_cell s.pastL v x).trans (pastL_cell s x)⟩

/-- Settles O33: the two results of `storeWith`, at storage and at the port, with the frame of each. -/
theorem dataWriteGoesToOneCellOrThePort : Obligations.DataWriteGoesToOneCellOrThePort := by
  intro valid a addr s hwf
  refine ⟨fun hstorage => ?_, fun hport hvalid => ?_, fun hport hinvalid => ?_⟩
  · exact ⟨_, storeWith_storage valid s hstorage, setCell_pastL_frame hwf addr (s.reg a)⟩
  · subst hport
    exact ⟨_, (storeWith_device valid a s).trans (if_pos hvalid), emit_pastL_frame s (s.reg a)⟩
  · subst hport
    exact (storeWith_device valid a s).trans (if_neg (by simp [hinvalid]))

end Sys2Proof.Machine
end

section
/-! PROOFS. Where control goes next (`30_encoding.md` R58): read off the effect of the instruction. -/

namespace Sys2Proof.Machine

open Sys2Proof.Claims

section
variable {i : Instr} {s t : State} {addr : Word}

/-- Only the operand can be a target (`44_branch.md` R90, R91; `45_call.md` R95, R96). -/
theorem operand?_of_takenTarget (h : takenTarget s i = some addr) : i.operand? = some addr := by
  cases i with
  | breq a b target | brne a b target | creq a b target | crne a b target =>
    obtain ⟨-, rfl⟩ : _ ∧ target = addr := by simpa [takenTarget] using h
    rfl
  | _ => cases h

theorem Effect.ip_of_takenTarget (h : Effect s i t) (hgo : takenTarget s i = some addr) : t.ip = addr := by
  cases h with
  | jump _ htarget _ | call _ htarget _ => exact Option.some.inj (htarget.symm.trans hgo)
  | passOver _ hpass _ => cases hpass.symm.trans hgo
  | register _ hop _ => cases hop.symm.trans (operand?_of_takenTarget hgo)
  | _ => cases hgo

/-- What a taken call saves is the address past its bytes (`90_conflicts.md` C2). -/
theorem rp_of_takenCall (hcall : takenCall s i = true) (h : exec i s = .next t) :
    t.rp.toNat = (s.ip.toNat + i.length) % 65536 := by
  obtain ⟨addr, hop, hto⟩ := exec_takenCall hcall
  cases hto.symm.trans h
  simp [length_eq_of_operand?, hop, BitVec.toNat_add]

end

/-- Settles O13: RET by its definition, the other redirections and the advance from the effect of the instruction, the
saved address from the state a taken call leaves. -/
theorem nextInstructionPointer : Obligations.NextInstructionPointer := by
  intro i s t hwait h
  have he : Effect s i t := exec_effect h
  refine ⟨?_, fun hret => ⟨fun _ => he.ip_of_takenTarget, he.ipPast hwait hret⟩, fun hcall => rp_of_takenCall hcall h⟩
  rintro rfl
  cases h
  rfl

end Sys2Proof.Machine
end

section
/-! PROOFS. The three fields of a first byte as numbers (`30_encoding.md` R51). -/

namespace Sys2Proof

theorem opcodeField_toNat (b0 : Byte) : (opcodeField b0).toNat = b0.toNat / 16 := by
  rw [opcodeField, BitVec.extractLsb'_toNat, Nat.shiftRight_eq_div_pow]
  omega

theorem regAField_toNat (b0 : Byte) : (regAField b0).toNat = b0.toNat / 4 % 4 := by
  rw [regAField, BitVec.extractLsb'_toNat, Nat.shiftRight_eq_div_pow]

theorem regBField_toNat (b0 : Byte) : (regBField b0).toNat = b0.toNat % 4 := by
  rw [regBField, BitVec.extractLsb'_toNat, Nat.shiftRight_zero]

/-- Settles O7: each field is a quotient or remainder of the byte, and the byte is their sum. -/
theorem firstByteIsThreeFields : Obligations.FirstByteIsThreeFields := by
  refine ⟨fun b0 => ⟨opcodeField_toNat b0, regAField_toNat b0, regBField_toNat b0, ?_⟩, rfl, rfl, rfl, rfl⟩
  rw [opcodeField_toNat, regAField_toNat, regBField_toNat]
  omega

end Sys2Proof
end

section
/-! PROOFS. The encoding (`30_encoding.md` R50 to R56). The decoder is one equation per format, given the row of the
first byte; the round trips and the table of opcodes are read off these two. -/

namespace Sys2Proof

open Sys2Proof.Machine Sys2Proof.Claims

/-! ### The decoder, one equation per format -/

section
variable {m : OpcodeMap} {b0 : Byte} {row : Mnemonic}

/-- Format S: the first byte alone (R52). -/
theorem decodeWith_short (hrow : rowOf m b0 = some row) (hop : row.takesOperand = false) (rest : List Byte) :
    decodeWith m (b0 :: rest) =
      .ok (row.build (Reg.ofSelector (regAField b0)) (Reg.ofSelector (regBField b0)) 0#16, rest) := by
  simp [decodeWith, hrow, hop]

/-- Format L: two more bytes, the high one first (R53). -/
theorem decodeWith_long (hrow : rowOf m b0 = some row) (hop : row.takesOperand = true) (hi lo : Byte)
    (rest : List Byte) :
    decodeWith m (b0 :: hi :: lo :: rest) =
      .ok (row.build (Reg.ofSelector (regAField b0)) (Reg.ofSelector (regBField b0)) (hi ++ lo), rest) := by
  simp [decodeWith, hrow, hop]

/-- Format L with its operand cut off. -/
theorem decodeWith_truncated (hrow : rowOf m b0 = some row) (hop : row.takesOperand = true) :
    decodeWith m [b0] = .error .truncated ∧ ∀ b1, decodeWith m [b0, b1] = .error .truncated := by
  simp [decodeWith, hrow, hop]

theorem length_build (row : Mnemonic) (a b : Reg) (addr : Word) :
    (row.build a b addr).length = if row.takesOperand then 3 else 1 := by
  rw [Instr.length, Mnemonic.build_mnemonic]

theorem rowOf_eq (m : OpcodeMap) (b0 : Byte) : rowOf m b0 = m[b0.toNat / 16]? := by
  rw [rowOf, opcodeField_toNat]

end

/-! ### Decoding what was encoded -/

/-- Format L is the class with an operand (R50, R52). -/
theorem takesOperand_mnemonic (i : Instr) : i.mnemonic.takesOperand = i.operand?.isSome := by
  cases i <;> rfl

/-- The fields an encoder emits name the instruction's own registers, and what it emits for an ignored field is dropped
(R55). -/
theorem build_encodedFields (i : Instr) :
    i.mnemonic.build (Reg.ofSelector (fieldOf i.regA?)) (Reg.ofSelector (fieldOf i.regB?)) (i.operand?.getD 0#16) =
      i := by
  cases i <;> simp [Instr.mnemonic, Mnemonic.build, fieldOf, Instr.regA?, Instr.regB?, Instr.operand?]

/-- The number an encoder emits leads the decoder back to the row. Four bits hold it, since the map is short. -/
theorem rowOf_encodedOpcode {m : OpcodeMap} {row : Mnemonic} (hlen : m.length ≤ 16) (hmem : row ∈ m)
    (a b : BitVec 2) : rowOf m (firstByte (BitVec.ofNat 4 (m.idxOf row)) a b) = some row := by
  have hidx : m.idxOf row < m.length := List.idxOf_lt_length_iff.mpr hmem
  rw [rowOf, opcodeField_firstByte, BitVec.toNat_ofNat, Nat.mod_eq_of_lt (by omega)]
  exact List.getElem?_idxOf hmem

theorem decodeWith_encodeWith {m : OpcodeMap} {i : Instr} (hlen : m.length ≤ 16) (hwf : i.wf m = true)
    (rest : List Byte) : decodeWith m (encodeWith m i ++ rest) = .ok (i, rest) := by
  have hrow := rowOf_encodedOpcode hlen (List.contains_iff_mem.mp hwf) (fieldOf i.regA?) (fieldOf i.regB?)
  have hfields := build_encodedFields i
  have htakes := takesOperand_mnemonic i
  cases hop : i.operand? with
  | none =>
    rw [hop] at hfields htakes
    rw [encodeWith, hop, operandBytes, List.cons_append, List.nil_append, decodeWith_short hrow htakes,
      regAField_firstByte, regBField_firstByte]
    exact congrArg (fun j => Except.ok (j, rest)) hfields
  | some addr =>
    rw [hop] at hfields htakes
    simp only [encodeWith, hop, operandBytes, List.cons_append, List.nil_append]
    rw [decodeWith_long hrow htakes, regAField_firstByte, regBField_firstByte, operand_halves]
    exact congrArg (fun j => Except.ok (j, rest)) hfields

theorem wf_opcodeMap (i : Instr) : i.wf opcodeMap = true := by
  cases i <;> rfl

/-- Settles O1: the row is found again by its number, and the fields by `build_encodedFields`. -/
theorem decodingAnEncodedInstructionGivesItBack : Obligations.DecodingAnEncodedInstructionGivesItBack :=
  ⟨fun _ _ rest _ hlen hwf => decodeWith_encodeWith hlen hwf rest, by decide, wf_opcodeMap⟩

/-! ### Encoding what was decoded -/

/-- A decoded row's number is the high nibble it was decoded from, when no row stands twice. -/
theorem idxOf_of_rowOf {m : OpcodeMap} {b0 : Byte} {row : Mnemonic} (hnodup : m.Nodup) (hrow : rowOf m b0 = some row) :
    BitVec.ofNat 4 (m.idxOf row) = opcodeField b0 := by
  obtain ⟨hlt, rfl⟩ := List.getElem?_eq_some_iff.mp hrow
  rw [hnodup.idxOf_getElem _ hlt, BitVec.ofNat_toNat, BitVec.setWidth_eq]

theorem firstByte_no_field (b0 : Byte) : firstByte (opcodeField b0) 0#2 0#2 = b0 &&& 0xF0#8 := by
  revert b0; decide

theorem firstByte_regA_field (b0 : Byte) : firstByte (opcodeField b0) (regAField b0) 0#2 = b0 &&& 0xFC#8 := by
  revert b0; decide

theorem firstByte_both_fields (b0 : Byte) : firstByte (opcodeField b0) (regAField b0) (regBField b0) = b0 &&& 0xFF#8 :=
  (firstByte_fields b0).trans BitVec.and_allOnes.symm

/-- The fields a row drops are the bits its instruction does not use. -/
theorem firstByte_build (row : Mnemonic) (b0 : Byte) (addr : Word) {i : Instr}
    (hi : i = row.build (Reg.ofSelector (regAField b0)) (Reg.ofSelector (regBField b0)) addr) :
    firstByte (opcodeField b0) (fieldOf i.regA?) (fieldOf i.regB?) = b0 &&& i.usedBits := by
  subst hi
  cases row with
  | HALT | RET => exact firstByte_no_field b0
  | SHL | SHR | ROL | ROR | LOAD | STOR =>
    simpa [Mnemonic.build, Instr.regA?, Instr.regB?, fieldOf, Instr.usedBits] using firstByte_regA_field b0
  | NAND | AND | OR | XOR | BREQ | BRNE | CREQ | CRNE =>
    simpa [Mnemonic.build, Instr.regA?, Instr.regB?, fieldOf, Instr.usedBits] using firstByte_both_fields b0

theorem operand?_build (row : Mnemonic) (a b : Reg) (addr : Word) :
    (row.build a b addr).operand? = if row.takesOperand then some addr else none := by
  cases row <;> rfl

/-- Settles O2: the number, the fields and the operand bytes of the decoded instruction, each encoded back. -/
theorem encodingADecodedInstructionClearsOnlyIgnoredBits :
    Obligations.EncodingADecodedInstructionClearsOnlyIgnoredBits := by
  intro bytes rest i h
  obtain ⟨b0, row, tail, rfl, hrow, hform⟩ := decodeWith_cases h
  have hnumber := idxOf_of_rowOf (by decide) hrow
  obtain ⟨hop, hi, lo, rfl, rfl⟩ | ⟨hop, rfl, rfl⟩ := hform
  · refine ⟨b0, [hi, lo], rfl, ?_⟩
    rw [encode, encodeWith, Mnemonic.build_mnemonic, hnumber, firstByte_build row b0 _ rfl, operand?_build, if_pos hop,
      operandBytes, operand_hi, operand_lo]
  · refine ⟨b0, [], rfl, ?_⟩
    rw [encode, encodeWith, Mnemonic.build_mnemonic, hnumber, firstByte_build row b0 _ rfl, operand?_build, hop]
    rfl

/-! ### The length and the table of opcodes -/

/-- The operand-taking class, by name (R52). -/
theorem mem_operandRows_iff (row : Mnemonic) :
    row ∈ [Mnemonic.LOAD, .STOR, .BREQ, .BRNE, .CREQ, .CRNE] ↔ row.takesOperand = true := by
  cases row <;> decide

/-- Settles O4: one of the decoder's three equations for each class. -/
theorem opcodeAloneDecidesLength : Obligations.OpcodeAloneDecidesLength := by
  intro m b0 b1 b2 rest row hplace
  have hrow : rowOf m b0 = some row := (rowOf_eq m b0).trans hplace
  rw [mem_operandRows_iff]
  refine ⟨fun hop => ?_, fun hop => ?_⟩
  · obtain ⟨hone, htwo⟩ := decodeWith_truncated hrow hop
    exact ⟨⟨_, decodeWith_long hrow hop b1 b2 rest, row.build_mnemonic _ _ _, by rw [length_build, if_pos hop]⟩,
      hone, htwo b1⟩
  · exact ⟨_, decodeWith_short hrow (by simpa using hop) rest, row.build_mnemonic _ _ _,
      by rw [length_build, if_neg hop]⟩

theorem toNat_byteOf {op : Nat} (hop : op < 16) (a b : BitVec 2) :
    (byteOf op a b).toNat = 16 * op + 4 * a.toNat + b.toNat := by
  rw [byteOf, BitVec.toNat_ofNat]
  omega

theorem fields_byteOf {op : Nat} (hop : op < 16) (a b : BitVec 2) :
    (byteOf op a b).toNat / 16 = op ∧ regAField (byteOf op a b) = a ∧ regBField (byteOf op a b) = b := by
  have hbyte := toNat_byteOf hop a b
  refine ⟨by omega, BitVec.eq_of_toNat_eq ?_, BitVec.eq_of_toNat_eq ?_⟩
  · rw [regAField_toNat]
    omega
  · rw [regBField_toNat]
    omega

/-- A row of format S in place `op` of the default map. -/
theorem shortForm_of_row {op : Nat} (row : Mnemonic) (hplace : opcodeMap[op]? = some row)
    (hshort : row.takesOperand = false) : ShortForm op (fun a b => row.build a b 0#16) := by
  intro a b rest
  obtain ⟨hlt, -⟩ := List.getElem?_eq_some_iff.mp hplace
  obtain ⟨hnibble, ha, hb⟩ := fields_byteOf hlt a b
  rw [decode, decodeWith_short ((rowOf_eq _ _).trans (hnibble.symm ▸ hplace)) hshort, ha, hb]

/-- A row of format L in place `op` of the default map. -/
theorem longForm_of_row {op : Nat} (row : Mnemonic) (hplace : opcodeMap[op]? = some row)
    (hlong : row.takesOperand = true) : LongForm op row.build := by
  intro a b hi lo rest
  obtain ⟨hlt, -⟩ := List.getElem?_eq_some_iff.mp hplace
  obtain ⟨hnibble, ha, hb⟩ := fields_byteOf hlt a b
  rw [decode, decodeWith_long ((rowOf_eq _ _).trans (hnibble.symm ▸ hplace)) hlong, ha, hb, operand_eq]

/-- Settles O6: each row in its place of the default map. -/
theorem opcodesAreNumberedInTableOrder : Obligations.OpcodesAreNumberedInTableOrder :=
  ⟨shortForm_of_row .HALT rfl rfl, shortForm_of_row .RET rfl rfl, shortForm_of_row .SHL rfl rfl,
    shortForm_of_row .SHR rfl rfl, shortForm_of_row .ROL rfl rfl, shortForm_of_row .ROR rfl rfl,
    shortForm_of_row .NAND rfl rfl, shortForm_of_row .AND rfl rfl, shortForm_of_row .OR rfl rfl,
    shortForm_of_row .XOR rfl rfl, longForm_of_row .LOAD rfl rfl, longForm_of_row .STOR rfl rfl,
    longForm_of_row .BREQ rfl rfl, longForm_of_row .BRNE rfl rfl, longForm_of_row .CREQ rfl rfl,
    longForm_of_row .CRNE rfl rfl⟩

/-- Settles O8: eight closed words, decoded by evaluation. -/
theorem sampleWordsDecode : Obligations.SampleWordsDecode :=
  ⟨rfl, rfl, rfl, rfl, rfl, rfl, rfl, rfl⟩

end Sys2Proof
end

section
/-! PROOFS. One step (`30_encoding.md` R57): what a step that answers a next state can have done, when it is fatal, and
what follows from that for every step. -/

namespace Sys2Proof.Machine

open Sys2Proof.Claims

/-! ### What a step can do -/

theorem step_eq_exec {s : State} {i : Instr} (h : s.current? = some i) : step s = exec i s := by
  cases hh : s.halted with
  | true => simp [State.current?, hh] at h
  | false =>
    obtain ⟨j, hj, -, hstep⟩ := step_current hh
    cases hj.symm.trans h
    exact hstep

theorem current?_of_halted {s : State} (h : s.halted = true) : s.current? = none := by
  rw [State.current?, if_pos h]

/-- A step that answers a next state: a halted core stays, any other has the effect of its instruction. -/
theorem step_effect {s t : State} (h : step s = .next t) :
    (s.halted = true ∧ t = s) ∨ (s.halted = false ∧ ∃ i, s.current? = some i ∧ Effect s i t) := by
  cases hh : s.halted with
  | true =>
    cases (step_halted hh).symm.trans h
    exact .inl ⟨rfl, rfl⟩
  | false =>
    obtain ⟨i, hcur, -, hstep⟩ := step_current hh
    exact .inr ⟨rfl, i, hcur, exec_effect (hstep.symm.trans h)⟩

/-- A fatal instruction is a read of the port that consumed `Abort` (`60_exceptions.md` R101). -/
theorem exec_fault {i : Instr} {s : State} {c : Fault} (h : exec i s = .fault c) :
    c = .deviceErrorInputAbort ∧ s.input.head? = some .abort ∧ ∃ a, i = .load a Config.devAddr := by
  cases i with
  | load a addr =>
    replace h : execLoad a addr s = .fault c := h
    by_cases haddr : addr = Config.devAddr
    · subst haddr
      rcases memRead_device s with ⟨hin, -⟩ | ⟨rest, hin, -⟩ | ⟨e, b, rest, hin, hb, -⟩
      · cases (execLoad_waiting hin).symm.trans h
      · cases (execLoad_abort hin).symm.trans h
        exact ⟨rfl, by rw [hin, List.head?_cons], a, rfl⟩
      · cases (execLoad_event hin hb).symm.trans h
    · cases (execLoad_storage s haddr).symm.trans h
  | stor a addr => cases (execStor_eq a addr s).symm.trans h
  | _ => cases h

theorem step_fault_iff {s : State} {c : Fault} :
    step s = .fault c ↔ c = .deviceErrorInputAbort ∧ s.input.head? = some .abort ∧
      ∃ a, s.current? = some (.load a Config.devAddr) := by
  constructor
  · intro h
    cases hh : s.halted with
    | true => cases (step_halted hh).symm.trans h
    | false =>
      obtain ⟨i, hcur, -, hstep⟩ := step_current hh
      obtain ⟨hc, habort, a, rfl⟩ := exec_fault (hstep.symm.trans h)
      exact ⟨hc, habort, a, hcur⟩
  · rintro ⟨rfl, habort, a, hcur⟩
    obtain ⟨rest, hin⟩ := List.head?_eq_some_iff.mp habort
    exact (step_eq_exec hcur).trans (execLoad_abort hin)

theorem step_not_refused (s : State) (r : Refusal) : step s ≠ .refused r := by
  intro h
  cases hh : s.halted with
  | true => cases (step_halted hh).symm.trans h
  | false =>
    obtain ⟨i, -, -, hstep⟩ := step_current hh
    exact exec_not_refused i s r (hstep.symm.trans h)

/-! ### The canonical memory -/

theorem Effect.keeps_wf {i : Instr} {s t : State} (h : Effect s i t) (hwf : s.mem.wf) : t.mem.wf := by
  cases h with
  | storCell _ => exact setCell_wf (s := s.pastL) hwf _ _
  | _ => simpa using hwf

/-- Settles O53: only a store to storage changes the memory, and it keeps the form. -/
theorem stepKeepsMemoryCanonical : Obligations.StepKeepsMemoryCanonical := by
  intro s t hwf h
  rcases step_effect h with ⟨-, rfl⟩ | ⟨-, i, -, he⟩
  · exact hwf
  · exact he.keeps_wf hwf

/-! ### The end of a run, the fatal step, and the streams -/

theorem Effect.halted_iff {i : Instr} {s t : State} (h : Effect s i t) (hs : s.halted = false) :
    t.halted = true ↔ i = .halt := by
  by_cases hi : i = .halt
  · subst hi
    cases h with
    | halt => simp
    | register _ _ hw => cases hw
    | passOver hop _ _ | jump hop _ _ | call hop _ _ => cases hop
  · rw [h.keeps_halted hi, hs]
    simp [hi]

/-- Settles O44: a halted core stays halted, and of the effects only that of HALT sets the flag. -/
theorem runEndsExactlyByHalt : Obligations.RunEndsExactlyByHalt := by
  intro s t h
  rcases step_effect h with ⟨hh, rfl⟩ | ⟨hh, i, hcur, he⟩
  · simp [Ended, hh]
  · simp [Ended, hh, hcur, he.halted_iff hh]

/-- Settles O47: the fatal steps by `step_fault_iff`, and every other step answers a next state. -/
theorem stepIsFatalExactlyOnAbort : Obligations.StepIsFatalExactlyOnAbort := by
  refine ⟨fun s c => step_fault_iff, fun s => ?_⟩
  cases h : step s with
  | next t => exact .inl ⟨t, h⟩
  | fault c => exact .inr (congrArg _ (step_fault_iff.mp h).1)
  | refused r => exact absurd h (step_not_refused s r)

theorem Effect.output_cases {i : Instr} {s t : State} (h : Effect s i t) :
    t.output = s.output ∨ ∃ b, t.output = s.output ++ [b] := by
  cases h with
  | @loadEvent a e b rest _ _ => exact .inr ⟨b, by simp⟩
  | storPort => exact .inr ⟨_, rfl⟩
  | _ => exact .inl (by simp)

theorem Effect.input_cases {i : Instr} {s t : State} (h : Effect s i t) :
    t.input = s.input ∨ ∃ e, s.input = e :: t.input := by
  cases h with
  | loadEvent hin _ => exact .inr ⟨_, by simpa using hin⟩
  | _ => exact .inl (by simp)

/-- Settles O46: the two streams after each effect. -/
theorem stepEmitsAndConsumesAtMostOne : Obligations.StepEmitsAndConsumesAtMostOne := by
  intro s t h
  rcases step_effect h with ⟨-, rfl⟩ | ⟨-, i, -, he⟩
  · exact ⟨.inl rfl, .inl rfl⟩
  · exact ⟨he.output_cases, he.input_cases⟩

/-! ### The port and the storage (`20_memory.md` R38) -/

theorem storedAddr_eq_some_iff {i : Instr} {x : Word} :
    storedAddr i = some x ↔ x ≠ Config.devAddr ∧ ∃ a, i = .stor a x := by
  cases i with
  | stor a addr =>
    by_cases h : addr = Config.devAddr
    · simp [storedAddr, effectiveAddr, h, eq_comm]
    · have hstored : storedAddr (.stor a addr) = some addr := if_neg h
      rw [hstored, Option.some.injEq]
      constructor
      · rintro rfl
        exact ⟨h, a, rfl⟩
      · rintro ⟨-, b, hb⟩
        cases hb
        rfl
  | _ => simp [storedAddr]

theorem readsPort_iff {i : Instr} : readsPort i = true ↔ ∃ a, i = .load a Config.devAddr := by
  cases i <;> simp [readsPort, effectiveAddr]

theorem writesPort_iff {i : Instr} : writesPort i = true ↔ ∃ a, i = .stor a Config.devAddr := by
  cases i <;> simp [writesPort, effectiveAddr]

/-- An effect on a stream is an access of the port, which stores to no cell. -/
theorem Effect.accessesPort {i : Instr} {s t : State} (h : Effect s i t)
    (hne : t.input ≠ s.input ∨ t.output ≠ s.output) : readsPort i = true ∨ writesPort i = true := by
  by_contra hnone
  obtain ⟨hr, hw⟩ : readsPort i = false ∧ writesPort i = false := by simpa using hnone
  exact hne.elim (· (h.keeps_input hr)) (· (h.keeps_output hr hw))

theorem storedAddr_of_accessesPort {i : Instr} (h : readsPort i = true ∨ writesPort i = true) :
    storedAddr i = none := by
  rcases h with h | h
  · obtain ⟨a, rfl⟩ := readsPort_iff.mp h
    rfl
  · obtain ⟨a, rfl⟩ := writesPort_iff.mp h
    rfl

/-- Settles O45: a changed cell is one the frame leaves open, and so is a changed stream. -/
theorem portAndStorageAreIsolated : Obligations.PortAndStorageAreIsolated := by
  intro s t hwf h
  rcases step_effect h with ⟨-, rfl⟩ | ⟨-, i, hcur, he⟩
  · exact ⟨fun x hx => absurd rfl hx, fun hne => by simp at hne⟩
  · refine ⟨fun x hx => ?_, fun hne => ?_⟩
    · obtain ⟨hport, a, rfl⟩ := storedAddr_eq_some_iff.mp (not_imp_comm.mp (he.keeps_cell hwf) hx)
      exact ⟨hport, a, hcur⟩
    · have haccess := he.accessesPort hne
      refine ⟨fun x => he.keeps_cell hwf (by simp [storedAddr_of_accessesPort haccess]), ?_⟩
      rcases haccess with hr | hw
      · obtain ⟨a, rfl⟩ := readsPort_iff.mp hr
        exact ⟨a, .inl hcur⟩
      · obtain ⟨a, rfl⟩ := writesPort_iff.mp hw
        exact ⟨a, .inr hcur⟩

end Sys2Proof.Machine
end

section
/-! PROOFS. The register file and the canonical memory as data (`10_state.md` R10, R11, R17), and the reset values (R22).
-/

namespace Sys2Proof.Machine

open Sys2Proof.Claims

/-! ### The register file -/

theorem regOfNat?_eq_some_iff {n : Nat} {r : Reg} : regOfNat? n = some r ↔ n = r.selector.toNat := by
  constructor
  · intro h
    unfold regOfNat? at h
    split at h <;> cases h <;> rfl
  · rintro rfl
    cases r <;> rfl

theorem regOfNat?_toNat (n : BitVec 2) : regOfNat? n.toNat = some (Reg.ofSelector n) :=
  regOfNat?_eq_some_iff.mpr (by rw [Reg.selector_ofSelector])

theorem regOfNat?_of_lt {n : Nat} (h : n < 4) : ∃ r, regOfNat? n = some r := by
  have hn : (BitVec.ofNat 2 n).toNat = n := Nat.mod_eq_of_lt h
  exact ⟨_, hn ▸ regOfNat?_toNat (BitVec.ofNat 2 n)⟩

theorem regOfNat?_of_ge {n : Nat} (h : 4 ≤ n) : regOfNat? n = none := by
  obtain ⟨k, rfl⟩ := Nat.exists_eq_add_of_le' h
  rfl

/-- Settles O9: the accessors go to the register a selector names, and selectors below 4 name different ones. -/
theorem registerFileReadsBackWrites : Obligations.RegisterFileReadsBackWrites := by
  refine ⟨fun s n q v hn hq => ?_, fun s n v hn => ?_, fun s n => ?_⟩
  · obtain ⟨r, hr⟩ := regOfNat?_of_lt hn
    obtain ⟨p, hp⟩ := regOfNat?_of_lt hq
    refine ⟨s.setReg r v, by simp [State.setSelector, hr], ?_⟩
    simp only [State.getSelector, hp]
    by_cases hqn : q = n
    · subst hqn
      cases hr.symm.trans hp
      rw [if_pos rfl, setReg_reg_same]
    · have hpr : p ≠ r := by
        rintro rfl
        exact hqn ((regOfNat?_eq_some_iff.mp hp).trans (regOfNat?_eq_some_iff.mp hr).symm)
      rw [if_neg hqn, setReg_reg_other s r p v hpr]
  · simp [State.getSelector, State.setSelector, regOfNat?_of_ge hn]
  · simp [State.getSelector, regOfNat?_toNat]

/-! ### Equal memories are equal data -/

section
variable {k : Nat} {v : Byte} {m n : Memory}

theorem Memory.read_head (k : Nat) (v : Byte) (m : Memory) : Memory.read ((k, v) :: m) k = v := by
  simp [Memory.read]

theorem Memory.read_tail_head (h : Memory.wf ((k, v) :: m)) : Memory.read m k = Config.blankByte :=
  Memory.read_below fun _ => Memory.lt_of_wf_cons h

/-- The first entry decides its own cell only. -/
theorem Memory.read_tail {a : Nat} (h : Memory.wf ((k, v) :: m)) (ha : a ≠ k) :
    Memory.read ((k, v) :: m) a = Memory.read m a := by
  by_cases hlt : a < k
  · rw [Memory.read, if_pos hlt]
    exact (Memory.read_below fun _ hd => Nat.lt_trans hlt (Memory.lt_of_wf_cons h hd)).symm
  · rw [Memory.read, if_neg hlt, if_neg ha]

/-- A listed cell does not read as a blank one, so it is listed in every memory that reads the same. -/
theorem Memory.exists_entry_le (h : Memory.wf ((k, v) :: m))
    (hread : Memory.read ((k, v) :: m) k = Memory.read n k) : ∃ d ∈ n, d.1 ≤ k := by
  by_contra hnone
  have hblank : Memory.read n k = Config.blankByte :=
    Memory.read_below fun d hd => Nat.lt_of_not_le fun hle => hnone ⟨d, hd, hle⟩
  exact (h.2 _ List.mem_cons_self).2 ((Memory.read_head k v m).symm.trans (hread.trans hblank))

/-- The first entry is the lowest, so it is not above the first entry of a memory that reads the same. -/
theorem Memory.head_le_of_read_eq {l : Nat} {w : Byte} (hm : Memory.wf ((k, v) :: m)) (hn : Memory.wf ((l, w) :: n))
    (hread : ∀ a < Config.memSize, Memory.read ((k, v) :: m) a = Memory.read ((l, w) :: n) a) : l ≤ k := by
  obtain ⟨d, hd, hle⟩ := Memory.exists_entry_le hm (hread k (hm.2 _ List.mem_cons_self).1)
  rcases List.mem_cons.mp hd with rfl | hd
  · exact hle
  · exact Nat.le_trans (Nat.le_of_lt (Memory.lt_of_wf_cons hn hd)) hle

end

theorem Memory.eq_of_read_eq {m n : Memory} (hm : Memory.wf m) (hn : Memory.wf n)
    (hread : ∀ a < Config.memSize, Memory.read m a = Memory.read n a) : m = n := by
  induction m generalizing n with
  | nil =>
    cases n with
    | nil => rfl
    | cons d n =>
      obtain ⟨_, hc, -⟩ := Memory.exists_entry_le (n := []) hn (hread d.1 (hn.2 _ List.mem_cons_self).1).symm
      cases hc
  | cons c m ih =>
    obtain ⟨k, v⟩ := c
    cases n with
    | nil =>
      obtain ⟨_, hd, -⟩ := Memory.exists_entry_le (n := []) hm (hread k (hm.2 _ List.mem_cons_self).1)
      cases hd
    | cons d n =>
      obtain ⟨l, w⟩ := d
      have hkl : k = l := Nat.le_antisymm (Memory.head_le_of_read_eq hn hm fun a ha => (hread a ha).symm)
        (Memory.head_le_of_read_eq hm hn hread)
      subst hkl
      have hvw : v = w := by
        simpa only [Memory.read_head] using hread k (hm.2 _ List.mem_cons_self).1
      subst hvw
      refine congrArg _ (ih (Memory.wf_tail hm) (Memory.wf_tail hn) fun a ha => ?_)
      by_cases hak : a = k
      · rw [hak, Memory.read_tail_head hm, Memory.read_tail_head hn]
      · rw [← Memory.read_tail hm hak, ← Memory.read_tail hn hak]
        exact hread a ha

/-- Settles O10: an address below 65536 is a word. -/
theorem canonicalMemoriesAreExtensional : Obligations.CanonicalMemoriesAreExtensional := by
  intro m n hm hn hread
  refine Memory.eq_of_read_eq hm hn fun a ha => ?_
  have hword : (BitVec.ofNat 16 a).toNat = a := Nat.mod_eq_of_lt ha
  simpa only [hword] using hread (BitVec.ofNat 16 a)

/-! ### Reset -/

theorem reset_reg (r : Reg) : State.reset.reg r = 0x00#8 := by
  cases r <;> rfl

theorem applyReset_reg (s : State) (r : Reg) : s.applyReset.reg r = 0x00#8 := by
  cases r <;> rfl

/-- Settles O51: each field of the reset state, the cells through the empty list of entries. -/
theorem resetValues : Obligations.ResetValues :=
  ⟨reset_reg, rfl, rfl, rfl, fun _ => rfl, rfl, rfl⟩

/-- Settles O52: the empty list of entries is canonical. -/
theorem resetMemoryIsCanonical : Obligations.ResetMemoryIsCanonical :=
  Memory.wf_nil

/-- Settles O56: `applyReset` takes every piece of core state from the reset state. -/
theorem resetRestoresTheCoreNotTheStreams : Obligations.ResetRestoresTheCoreNotTheStreams :=
  fun s => ⟨applyReset_reg s, rfl, rfl, rfl, fun _ => rfl, rfl, rfl⟩

end Sys2Proof.Machine
end

section
/-! PROOFS. The register forms (`40_halt_ret.md`, `41_shift_rotate.md`, `42_logic.md`): one frame for every form that
writes a register, and beside it the byte functions of the shifts, rotates and logic instructions. -/

namespace Sys2Proof.Machine

open Sys2Proof.Claims

/-! ### The frame of the forms -/

theorem ipPast_advance (s : State) (n : Nat) : IpPast n s (s.advance n) :=
  ipPast_of_ip_eq rfl

/-- A register write after the fetch of `n` bytes changes that register and `ip`. -/
theorem onlyRegister_advance_setReg (s : State) (n : Nat) (a : Reg) (v : Byte) :
    OnlyRegister a v n s ((s.advance n).setReg a v) :=
  ⟨setReg_reg_same _ a v, fun r hr => (setReg_reg_other _ a r v hr).trans (advance_reg s n r),
    ipPast_of_ip_eq (setReg_ip _ a v), setReg_rp _ a v, setReg_halted _ a v, fun x => setReg_cell _ a v x,
    setReg_input _ a v, setReg_output _ a v⟩

theorem updateReg_only (a : Reg) (f : Byte → Byte) (s : State) :
    ∃ t, updateReg a f s = .next t ∧ OnlyRegister a (f (s.reg a)) 1 s t :=
  ⟨_, updateReg_eq a f s, onlyRegister_advance_setReg s 1 a _⟩

theorem combineRegs_only (a b : Reg) (f : Byte → Byte → Byte) (s : State) :
    ∃ t, combineRegs a b f s = .next t ∧ OnlyRegister a (f (s.reg a) (s.reg b)) 1 s t :=
  ⟨_, combineRegs_eq a b f s, onlyRegister_advance_setReg s 1 a _⟩

/-- A statement about the value a register form writes, in the form "this value and nothing else". -/
theorem onlyRegister_self {a : Reg} {v : Byte} {n : Nat} {s t : State} (h : OnlyRegister a v n s t) :
    OnlyRegister a (t.reg a) n s t := by
  rwa [h.1]

theorem onlyIp_setIp (s : State) (a : Word) : OnlyIp a s (s.setIp a) :=
  ⟨rfl, setIp_reg s a, rfl, rfl, fun _ => rfl, rfl, rfl⟩

/-! ### HALT and RET -/

/-- Settles O15: the row of HALT, and the frame of `pastS` with the flag set. -/
theorem haltSetsTheFlagOnly : Obligations.HaltSetsTheFlagOnly :=
  ⟨shortForm_of_row .HALT rfl rfl, fun s => ⟨s.pastS.setHalted, rfl, rfl, ipPast_advance s 1,
    fun r => by rw [setHalted_reg, pastS_reg], rfl, fun _ => rfl, rfl, rfl⟩⟩

/-- Settles O16: the row of RET, and the frame of `setIp`. -/
theorem retGoesToRpAndKeepsIt : Obligations.RetGoesToRpAndKeepsIt :=
  ⟨shortForm_of_row .RET rfl rfl, fun s => ⟨s.setIp s.rp, rfl, onlyIp_setIp s s.rp⟩⟩

/-! ### The byte functions of shifts and rotates -/

theorem shl1_eq (v : Byte) : shl1 v = BitVec.ofNat 8 (2 * v.toNat % 256) := by
  revert v; decide

theorem shr1_eq (v : Byte) : shr1 v = BitVec.ofNat 8 (v.toNat / 2) := by
  revert v; decide

theorem rol1_bit (v : Byte) : ∀ k < 8, (rol1 v).getLsbD ((k + 1) % 8) = v.getLsbD k := by
  revert v; decide

theorem ror1_bit (v : Byte) : ∀ k < 8, (ror1 v).getLsbD k = v.getLsbD ((k + 1) % 8) := by
  revert v; decide

/-- Settles O17: the row of SHL, and its byte function as a product. -/
theorem shlDoublesModulo256 : Obligations.ShlDoublesModulo256 :=
  ⟨shortForm_of_row .SHL rfl rfl, fun a s => shl1_eq (s.reg a) ▸ updateReg_only a shl1 s⟩

/-- Settles O18: the row of SHR, and its byte function as a quotient. -/
theorem shrHalvesUnsigned : Obligations.ShrHalvesUnsigned :=
  ⟨shortForm_of_row .SHR rfl rfl, fun a s => shr1_eq (s.reg a) ▸ updateReg_only a shr1 s⟩

/-- Settles O19: the row of ROL, and its byte function bit by bit. -/
theorem rolMovesEachBitUp : Obligations.RolMovesEachBitUp := by
  refine ⟨shortForm_of_row .ROL rfl rfl, fun a s => ?_⟩
  obtain ⟨t, ht, honly⟩ := updateReg_only a rol1 s
  exact ⟨t, ht, honly.1 ▸ rol1_bit (s.reg a), onlyRegister_self honly⟩

/-- Settles O20: the row of ROR, and its byte function bit by bit. -/
theorem rorMovesEachBitDown : Obligations.RorMovesEachBitDown := by
  refine ⟨shortForm_of_row .ROR rfl rfl, fun a s => ?_⟩
  obtain ⟨t, ht, honly⟩ := updateReg_only a ror1 s
  exact ⟨t, ht, honly.1 ▸ ror1_bit (s.reg a), onlyRegister_self honly⟩

/-! ### Many shifts, many rotates (`41_shift_rotate.md` R79) -/

/-- `k` executions of a one-register form apply its byte function `k` times. -/
theorem execTimes_updateReg {i : Instr} {a : Reg} {f : Byte → Byte} (hi : ∀ s, exec i s = updateReg a f s) (k : Nat)
    (s : State) : ∃ t, execTimes i k s = .next t ∧ t.reg a = f^[k] (s.reg a) := by
  induction k generalizing s with
  | zero => exact ⟨s, rfl, rfl⟩
  | succ k ih =>
    obtain ⟨u, hu, honly⟩ := updateReg_only a f s
    obtain ⟨t, ht, hreg⟩ := ih u
    refine ⟨t, ?_, ?_⟩
    · rw [execTimes, hi, hu]
      exact ht
    · rw [hreg, honly.1, Function.iterate_succ_apply]

theorem rol1_ror1 (v : Byte) : rol1 (ror1 v) = v := by
  revert v; decide

theorem ror1_rol1 (v : Byte) : ror1 (rol1 v) = v := by
  revert v; decide

theorem rol1_period (v : Byte) : Function.IsPeriodicPt rol1 8 v := by
  revert v; unfold Function.IsPeriodicPt Function.IsFixedPt; decide

theorem ror1_period (v : Byte) : Function.IsPeriodicPt ror1 8 v := by
  revert v; unfold Function.IsPeriodicPt Function.IsFixedPt; decide

/-- A one-register form whose byte function has period eight. -/
theorem execTimes_mod_eight {i : Instr} {a : Reg} {f : Byte → Byte} (hi : ∀ s, exec i s = updateReg a f s)
    (hf : ∀ v, Function.IsPeriodicPt f 8 v) (s : State) (k : Nat) :
    ∃ t u, execTimes i k s = .next t ∧ execTimes i (k % 8) s = .next u ∧ t.reg a = u.reg a ∧
      (k % 8 = 0 → t.reg a = s.reg a) := by
  obtain ⟨t, ht, htreg⟩ := execTimes_updateReg hi k s
  obtain ⟨u, hu, hureg⟩ := execTimes_updateReg hi (k % 8) s
  have hmod : f^[k % 8] (s.reg a) = f^[k] (s.reg a) := (hf (s.reg a)).iterate_mod_apply k
  refine ⟨t, u, ht, hu, htreg.trans (hmod.symm.trans hureg.symm), fun hk => ?_⟩
  rw [htreg, ← hmod, hk, Function.iterate_zero_apply]

/-- Two one-register forms on the same register, the second undoing the first. -/
theorem updateReg_undo {f g : Byte → Byte} (a : Reg) (s : State) (hgf : ∀ v, g (f v) = v) :
    ∃ t u, updateReg a f s = .next t ∧ updateReg a g t = .next u ∧ u.reg a = s.reg a := by
  obtain ⟨t, ht, htonly⟩ := updateReg_only a f s
  obtain ⟨u, hu, huonly⟩ := updateReg_only a g t
  exact ⟨t, u, ht, hu, by rw [huonly.1, htonly.1, hgf]⟩

/-- Settles O21: both byte functions have period eight, and each undoes the other. -/
theorem rotatesHavePeriodEight : Obligations.RotatesHavePeriodEight := by
  constructor
  · rintro i a s k (rfl | rfl)
    · exact execTimes_mod_eight (fun _ => rfl) rol1_period s k
    · exact execTimes_mod_eight (fun _ => rfl) ror1_period s k
  · rintro i j a s (⟨rfl, rfl⟩ | ⟨rfl, rfl⟩)
    · exact updateReg_undo a s ror1_rol1
    · exact updateReg_undo a s rol1_ror1

theorem shl1_eight (v : Byte) : shl1^[8] v = 0x00#8 := by
  revert v; decide

theorem shr1_eight (v : Byte) : shr1^[8] v = 0x00#8 := by
  revert v; decide

theorem shl1_eq_self_iff (v : Byte) : shl1 v = v ↔ v = 0x00#8 := by
  revert v; decide

theorem shr1_eq_self_iff (v : Byte) : shr1 v = v ↔ v = 0x00#8 := by
  revert v; decide

/-- A one-register form whose byte function empties a byte in eight applications and keeps 0x00. -/
theorem execTimes_ge_eight {i : Instr} {a : Reg} {f : Byte → Byte} (hi : ∀ s, exec i s = updateReg a f s)
    (hf : ∀ v, f^[8] v = 0x00#8) (hzero : f 0x00#8 = 0x00#8) (s : State) {k : Nat} (hk : 8 ≤ k) :
    ∃ t, execTimes i k s = .next t ∧ t.reg a = 0x00#8 := by
  obtain ⟨t, ht, hreg⟩ := execTimes_updateReg hi k s
  obtain ⟨j, rfl⟩ := Nat.exists_eq_add_of_le' hk
  refine ⟨t, ht, ?_⟩
  rw [hreg, Function.iterate_add_apply, hf]
  exact Function.iterate_fixed hzero j

theorem updateReg_keeps_iff {f : Byte → Byte} (hself : ∀ v, f v = v ↔ v = 0x00#8) (a : Reg) (s : State) :
    ∃ t, updateReg a f s = .next t ∧ (t.reg a = s.reg a ↔ s.reg a = 0x00#8) := by
  obtain ⟨t, ht, honly⟩ := updateReg_only a f s
  exact ⟨t, ht, honly.1 ▸ hself (s.reg a)⟩

/-- Settles O22: eight applications of either byte function give 0x00, which is its only fixed value. -/
theorem eightShiftsGiveZero : Obligations.EightShiftsGiveZero := by
  constructor
  · rintro i a s k (rfl | rfl) hk
    · exact execTimes_ge_eight (fun _ => rfl) shl1_eight rfl s hk
    · exact execTimes_ge_eight (fun _ => rfl) shr1_eight rfl s hk
  · rintro i a s (rfl | rfl)
    · exact updateReg_keeps_iff shl1_eq_self_iff a s
    · exact updateReg_keeps_iff shr1_eq_self_iff a s

/-! ### Logic (`42_logic.md` R88) -/

/-- A two-register form follows a table when its byte function does so at each bit. -/
theorem followsTable_of_bits {mk : Reg → Reg → Instr} {f : Byte → Byte → Byte} {table : Bool → Bool → Bool}
    (hmk : ∀ a b s, exec (mk a b) s = combineRegs a b f s)
    (hbit : ∀ x y, ∀ k < 8, (f x y).getLsbD k = table (x.getLsbD k) (y.getLsbD k)) : FollowsTable mk table := by
  intro a b s
  obtain ⟨t, ht, honly⟩ := combineRegs_only a b f s
  exact ⟨t, (hmk a b s).trans ht, honly.1 ▸ hbit _ _, onlyRegister_self honly⟩

/-- Settles O23: the row of NAND, and its byte function at each bit for the four pairs of bits. -/
theorem nandFollowsItsTruthTable : Obligations.NandFollowsItsTruthTable := by
  refine ⟨shortForm_of_row .NAND rfl rfl, followsTable_of_bits (fun _ _ _ => rfl) fun x y k hk => ?_⟩
  rw [nand8, BitVec.getLsbD_not, BitVec.getLsbD_and, decide_eq_true hk, Bool.true_and]
  cases x.getLsbD k <;> cases y.getLsbD k <;> rfl

/-- Settles O24: the row of AND, and its byte function at each bit for the four pairs of bits. -/
theorem andFollowsItsTruthTable : Obligations.AndFollowsItsTruthTable := by
  refine ⟨shortForm_of_row .AND rfl rfl, followsTable_of_bits (fun _ _ _ => rfl) fun x y k _ => ?_⟩
  rw [and8, BitVec.getLsbD_and]
  cases x.getLsbD k <;> cases y.getLsbD k <;> rfl

/-- Settles O25: the row of OR, and its byte function at each bit for the four pairs of bits. -/
theorem orFollowsItsTruthTable : Obligations.OrFollowsItsTruthTable := by
  refine ⟨shortForm_of_row .OR rfl rfl, followsTable_of_bits (fun _ _ _ => rfl) fun x y k _ => ?_⟩
  rw [or8, BitVec.getLsbD_or]
  cases x.getLsbD k <;> cases y.getLsbD k <;> rfl

/-- Settles O26: the row of XOR, and its byte function at each bit for the four pairs of bits. -/
theorem xorFollowsItsTruthTable : Obligations.XorFollowsItsTruthTable := by
  refine ⟨shortForm_of_row .XOR rfl rfl, followsTable_of_bits (fun _ _ _ => rfl) fun x y k _ => ?_⟩
  rw [xor8, BitVec.getLsbD_xor]
  cases x.getLsbD k <;> cases y.getLsbD k <;> rfl

theorem nand8_self_toNat (x : Byte) : (nand8 x x).toNat = 255 - x.toNat := by
  rw [nand8, BitVec.and_self, BitVec.toNat_not]

/-- Settles O27: each logic function on a byte with itself. -/
theorem logicOnOneRegisterTwice : Obligations.LogicOnOneRegisterTwice := by
  intro a s
  refine ⟨?_, ?_, ?_, ?_⟩
  · obtain ⟨t, ht, honly⟩ := combineRegs_only a a nand8 s
    exact ⟨t, ht, honly.1 ▸ nand8_self_toNat (s.reg a)⟩
  · have hand := combineRegs_only a a and8 s
    rwa [show and8 (s.reg a) (s.reg a) = s.reg a from BitVec.and_self] at hand
  · have hor := combineRegs_only a a or8 s
    rwa [show or8 (s.reg a) (s.reg a) = s.reg a from BitVec.or_self] at hor
  · obtain ⟨t, ht, honly⟩ := combineRegs_only a a xor8 s
    exact ⟨t, ht, honly.1.trans BitVec.xor_self⟩

end Sys2Proof.Machine
end

section
/-! PROOFS. The fetch (`30_encoding.md` R52, R53, R57, R59): which bytes an instruction has, and which instruction they
decode to. -/

namespace Sys2Proof.Machine

open Sys2Proof.Claims

/-! ### The fetched bytes -/

/-- The bytes fetched one after another, by their addresses. -/
theorem bytesFrom_eq_map (s : State) (p : Word) (n : Nat) :
    s.bytesFrom p n = (List.range n).map fun k => s.cell (p + BitVec.ofNat 16 k) := by
  induction n generalizing p with
  | zero => rfl
  | succ n ih =>
    have haddr (k : Nat) : p + 1#16 + BitVec.ofNat 16 k = p + BitVec.ofNat 16 (k + 1) := by
      rw [BitVec.add_assoc, BitVec.ofNat_add_ofNat, Nat.add_comm]
    simp [State.bytesFrom, State.fetch, ih, List.range_succ_eq_map, haddr]

/-- Equal cells at the fetched addresses give the same bytes. -/
theorem bytesFrom_congr {s t : State} {p : Word} {n : Nat}
    (h : ∀ k < n, t.cell (p + BitVec.ofNat 16 k) = s.cell (p + BitVec.ofNat 16 k)) :
    t.bytesFrom p n = s.bytesFrom p n := by
  rw [bytesFrom_eq_map, bytesFrom_eq_map]
  exact List.map_congr_left fun k hk => h k (List.mem_range.mp hk)

/-- Fetching further only adds bytes at the end. -/
theorem bytesFrom_add (s : State) (p : Word) (n k : Nat) : ∃ more, s.bytesFrom p (n + k) = s.bytesFrom p n ++ more := by
  rw [bytesFrom_eq_map, bytesFrom_eq_map, List.range_add, List.map_append]
  exact ⟨_, rfl⟩

theorem instrBytes_eq_bytesFrom (s : State) : s.instrBytes = s.bytesFrom s.ip s.instrBytes.length := by
  unfold State.instrBytes
  split <;> rw [bytesFrom_length]

/-- The bytes of an instruction depend on `ip` and on the cells they are fetched from. -/
theorem instrBytes_congr {s t : State} (hip : t.ip = s.ip)
    (hcell : ∀ k < s.instrBytes.length, t.cell (s.ip + BitVec.ofNat 16 k) = s.cell (s.ip + BitVec.ofNat 16 k)) :
    t.instrBytes = s.instrBytes := by
  have hpos : 0 < s.instrBytes.length := by
    obtain ⟨i, -, hlen⟩ := decode_instrBytes s
    have := i.length_cases
    omega
  have hfirst : t.fetch s.ip = s.fetch s.ip := by simpa [State.fetch] using hcell 0 hpos
  have hsame : t.instrBytes = t.bytesFrom s.ip s.instrBytes.length := by
    unfold State.instrBytes
    rw [hip, hfirst]
    split <;> rw [bytesFrom_length]
  rw [hsame, instrBytes_eq_bytesFrom s, bytesFrom_length]
  exact bytesFrom_congr hcell

theorem current?_congr {s t : State} (hhalted : t.halted = s.halted) (hbytes : t.instrBytes = s.instrBytes) :
    t.current? = s.current? := by
  rw [State.current?, State.current?, hhalted, hbytes]

/-- `ip + n` modulo 65536, from the numbers the statements use (`00_scope.md` R8). -/
theorem ofNat_toNat_add (a : Word) (n : Nat) : BitVec.ofNat 16 ((a.toNat + n) % 65536) = a + BitVec.ofNat 16 n :=
  BitVec.eq_of_toNat_eq (by simp)

/-- Settles O14: the fetched addresses, evaluated at the top of memory. -/
theorem instructionBytesWrapAtTheTop : Obligations.InstructionBytesWrapAtTheTop := by
  intro s
  refine ⟨fun hip h => ?_, fun hip h => ?_, fun hip h => ?_⟩
  · rw [instrBytes_long (by rwa [hip]), hip]
    rfl
  · rw [instrBytes_long (by rwa [hip]), hip]
    rfl
  · rw [instrBytes_short (by rwa [hip]), hip]

/-! ### The decoded instruction -/

theorem announcesOperand_eq {b0 : Byte} {row : Mnemonic} (hrow : rowOf opcodeMap b0 = some row) :
    announcesOperand b0 = row.takesOperand := by
  rw [announcesOperand, hrow]

/-- Under the default map the operand-taking class begins at 0xA (decision D1, log 1). -/
theorem announcesOperand_iff (b0 : Byte) : announcesOperand b0 = true ↔ 0xA0 ≤ b0.toNat := by
  revert b0; decide

/-- Settles O3: every first byte has a row, and the causes of a fatal step leave DecodeError out. -/
theorem everyFirstByteDecodes : Obligations.EveryFirstByteDecodes := by
  refine ⟨fun b0 b1 b2 rest => ?_, fun s h => by cases (step_fault_iff.mp h).1⟩
  obtain ⟨row, hrow⟩ := Option.isSome_iff_exists.mp (rowOf_opcodeMap_isSome b0)
  have hclass : row.takesOperand = true ↔ 0xA0 ≤ b0.toNat := announcesOperand_eq hrow ▸ announcesOperand_iff b0
  by_cases hop : row.takesOperand = true
  · rw [if_pos (hclass.mp hop), if_pos (hclass.mp hop)]
    exact ⟨_, decodeWith_long hrow hop b1 b2 rest, by rw [length_build, if_pos hop]⟩
  · rw [if_neg (mt hclass.mpr hop), if_neg (mt hclass.mpr hop)]
    exact ⟨_, decodeWith_short hrow (by simpa using hop) _, by rw [length_build, if_neg hop]⟩

/-- Settles O5: the second and third byte of the instruction, as the decoder assembles them. -/
theorem operandIsFetchedBigEndian : Obligations.OperandIsFetchedBigEndian := by
  intro s h
  obtain ⟨row, hrow⟩ := Option.isSome_iff_exists.mp (rowOf_opcodeMap_isSome (s.cell s.ip))
  have hop : row.takesOperand = true := (announcesOperand_eq hrow).symm.trans h
  have htwo : s.ip + 1#16 + 1#16 = s.ip + 2#16 := BitVec.add_assoc s.ip 1#16 1#16
  refine ⟨_, by rw [instrBytes_long h]; exact decodeWith_long hrow hop _ _ _, ?_, ?_⟩
  · rw [length_build, if_pos hop]
  · rw [operand?_build, if_pos hop, operand_eq, ofNat_toNat_add, ofNat_toNat_add, htwo]

/-- More bytes at the end do not change the instruction. -/
theorem decodeWith_append {m : OpcodeMap} {bytes rest : List Byte} {i : Instr} (h : decodeWith m bytes = .ok (i, rest))
    (more : List Byte) : decodeWith m (bytes ++ more) = .ok (i, rest ++ more) := by
  obtain ⟨b0, row, tail, rfl, hrow, hform⟩ := decodeWith_cases h
  obtain ⟨hop, hi, lo, rfl, rfl⟩ | ⟨hop, rfl, rfl⟩ := hform
  · exact decodeWith_long hrow hop hi lo (rest ++ more)
  · exact decodeWith_short hrow hop (tail ++ more)

/-- Settles O11: the bytes given and the instruction's own bytes both begin one longer fetch. -/
theorem stepRunsTheDecodedInstruction : Obligations.StepRunsTheDecodedInstruction := by
  intro s i n rest hh hdec
  obtain ⟨j, -, hj, hstep⟩ := step_current hh
  rw [instrBytes_eq_bytesFrom] at hj
  obtain ⟨more, hmore⟩ := bytesFrom_add s s.ip n s.instrBytes.length
  obtain ⟨more', hmore'⟩ := bytesFrom_add s s.ip s.instrBytes.length n
  have hi := decodeWith_append hdec more
  have hj := decodeWith_append hj more'
  rw [← hmore, Nat.add_comm, hmore', hj] at hi
  cases hi
  exact hstep

/-- Settles O12: the first line of `step`. -/
theorem haltedCoreStaysAsItIs : Obligations.HaltedCoreStaysAsItIs :=
  fun _ => step_halted

end Sys2Proof.Machine
end

section
/-! PROOFS. LOAD and STOR (`43_load_store.md`), the device port (`20_memory.md` R32 to R36, R46, R48), branches and calls
(`44_branch.md`, `45_call.md`). -/

namespace Sys2Proof.Machine

open Sys2Proof.Claims

/-! ### LOAD -/

/-- Settles O28: each event by its definition. -/
theorem inputEventBytes : Obligations.InputEventBytes :=
  ⟨fun _ => rfl, rfl, rfl, rfl, rfl⟩

/-- Settles O29: the row of LOAD, and the frame of a register write past three bytes. -/
theorem loadFromStorageCopiesTheCell : Obligations.LoadFromStorageCopiesTheCell :=
  ⟨longForm_of_row .LOAD rfl rfl, fun a addr s haddr =>
    ⟨_, execLoad_storage s haddr, onlyRegister_advance_setReg s 3 a (s.cell addr)⟩⟩

/-- Settles O30: the state `execLoad_event` gives, one part at a time. -/
theorem loadFromThePortConsumesAndEchoes : Obligations.LoadFromThePortConsumesAndEchoes := by
  intro a s e b rest hin hb
  let u := (s.pastL.withInput rest).emit b
  have hu (r : Reg) : u.reg r = s.reg r := by rw [emit_reg, withInput_reg, pastL_reg]
  exact ⟨u.setReg a b, execLoad_event hin hb, setReg_reg_same u a b,
    fun r hr => (setReg_reg_other u a r b hr).trans (hu r), setReg_input u a b, setReg_output u a b,
    ipPast_of_ip_eq (setReg_ip u a b), setReg_rp u a b, setReg_halted u a b, fun x => setReg_cell u a b x⟩

/-- Settles O31: the case of `Abort` in `execLoad`. -/
theorem loadOfAbortIsFatal : Obligations.LoadOfAbortIsFatal :=
  fun _ _ _ hin => execLoad_abort hin

theorem current?_deliver (s : State) (e : InputEvent) : (s.deliver e).current? = s.current? :=
  current?_congr rfl (instrBytes_congr rfl fun _ _ => rfl)

/-- Settles O32: a delivery leaves the instruction, so the next step is the same LOAD with the event to read. -/
theorem blockedReadResumesWhenInputArrives : Obligations.BlockedReadResumesWhenInputArrives := by
  intro s a hwait hcur
  obtain ⟨-, hempty⟩ := hwait
  have hinput (e : InputEvent) : (s.deliver e).input = e :: [] := by rw [deliver_input, hempty, List.nil_append]
  have hstep (e : InputEvent) : step (s.deliver e) = exec (.load a 0xFFFF#16) (s.deliver e) :=
    step_eq_exec ((current?_deliver s e).trans hcur)
  refine ⟨(step_eq_exec hcur).trans (execLoad_waiting hempty), fun e b hb => ?_,
    (hstep .abort).trans (execLoad_abort (hinput .abort))⟩
  obtain ⟨t, ht, hreg, -, hin, hout, hip, -⟩ := loadFromThePortConsumesAndEchoes a (s.deliver e) e b [] (hinput e) hb
  exact ⟨t, (hstep e).trans ht, hreg, hin, hout, hip⟩

/-! ### STOR -/

/-- Settles O34: the row of STOR, and the frames of its two data writes. -/
theorem storWritesTheCellOrEmits : Obligations.StorWritesTheCellOrEmits := by
  refine ⟨longForm_of_row .STOR rfl rfl, fun a addr s hwf => ?_⟩
  rw [show effectiveAddr addr = addr from rfl]
  by_cases hport : addr = Config.devAddr
  · obtain ⟨hout, hin, hcells⟩ := emit_pastL_frame s (s.reg a)
    exact ⟨_, (execStor_eq a addr s).trans (congrArg _ (if_pos hport)), ipPast_advance s 3,
      fun r => (emit_reg _ _ r).trans (pastL_reg s r), rfl, rfl, hin, fun hne => absurd hport hne,
      fun _ => ⟨hout, hcells _⟩, fun x _ => hcells x⟩
  · obtain ⟨hcell, hothers, hin, hout⟩ := setCell_pastL_frame hwf addr (s.reg a)
    exact ⟨_, (execStor_eq a addr s).trans (congrArg _ (if_neg hport)), ipPast_advance s 3,
      fun r => (setCell_reg _ _ _ r).trans (pastL_reg s r), rfl, rfl, hin, fun _ => ⟨hcell, hout⟩,
      fun heq => absurd heq hport, hothers⟩

/-- Settles O35: the fetched bytes by their addresses, each cell read after the write. -/
theorem storedByteIsWhatTheNextFetchReads : Obligations.StoredByteIsWhatTheNextFetchReads := by
  intro a addr s t hwf hport h p n
  cases ((execStor_eq a addr s).trans (congrArg _ (if_neg hport))).symm.trans h
  obtain ⟨hcell, hothers, -⟩ := setCell_pastL_frame hwf addr (s.reg a)
  rw [bytesFrom_eq_map]
  refine List.map_congr_left fun k _ => ?_
  by_cases hk : p + BitVec.ofNat 16 k = addr
  · rw [if_pos hk, hk, hcell]
  · rw [if_neg hk, hothers _ hk]

/-! ### Branches -/

/-- A branch goes to its target or past its operand, and changes nothing else. -/
theorem branchIf_only (c : Bool) (addr : Word) (s : State) :
    ∃ t, branchIf c addr s = .next t ∧
      OnlyIp (if c then addr else BitVec.ofNat 16 ((s.ip.toNat + 3) % 65536)) s t := by
  rw [ofNat_toNat_add]
  exact ⟨_, branchIf_eq c addr s, onlyIp_setIp s _⟩

/-- Settles O36: the row of BREQ, and the frame of a branch on its condition. -/
theorem breqRedirectsExactlyWhenEqual : Obligations.BreqRedirectsExactlyWhenEqual := by
  refine ⟨longForm_of_row .BREQ rfl rfl, fun a b addr s => ?_⟩
  have hbranch := branchIf_only (s.pastL.regsEqual a b) addr s
  simp only [regsEqual_iff, pastL_reg] at hbranch
  exact hbranch

/-- Settles O37: the row of BRNE, and the frame of a branch on its condition. -/
theorem brneRedirectsExactlyWhenDifferent : Obligations.BrneRedirectsExactlyWhenDifferent := by
  refine ⟨longForm_of_row .BRNE rfl rfl, fun a b addr s => ?_⟩
  have hbranch := branchIf_only (!s.pastL.regsEqual a b) addr s
  simp only [Bool.not_eq_true', ← Bool.not_eq_true, regsEqual_iff, pastL_reg, ite_not] at hbranch
  exact hbranch

/-! ### Calls -/

/-- A call goes to its target and saves the address past its operand, or stays past the operand; nothing else changes. -/
theorem callIf_frame (c : Bool) (addr : Word) (s : State) :
    ∃ t, callIf c addr s = .next t ∧
      (c = true → t.ip = addr ∧ t.rp.toNat = (s.ip.toNat + 3) % 65536) ∧
      (c = false → IpPast 3 s t ∧ t.rp = s.rp) ∧
      SameRegs s t ∧ t.halted = s.halted ∧ SameCells s t ∧ SameStreams s t := by
  cases c with
  | true =>
    exact ⟨_, callIf_eq true addr s, fun _ => ⟨rfl, ipPast_advance s 3⟩, nofun,
      fun r => by rw [if_pos rfl, setIp_reg, setRp_reg], rfl, fun _ => rfl, rfl, rfl⟩
  | false =>
    exact ⟨_, callIf_eq false addr s, nofun, fun _ => ⟨ipPast_advance s 3, rfl⟩, setIp_reg s _, rfl, fun _ => rfl,
      rfl, rfl⟩

/-- Settles O38: the row of CREQ, and the frame of a call on its condition. -/
theorem creqCallsExactlyWhenEqual : Obligations.CreqCallsExactlyWhenEqual := by
  refine ⟨longForm_of_row .CREQ rfl rfl, fun a b addr s => ?_⟩
  have hcall := callIf_frame (s.pastL.regsEqual a b) addr s
  simp only [← Bool.not_eq_true, regsEqual_iff, pastL_reg] at hcall
  exact hcall

/-- Settles O39: the row of CRNE, and the frame of a call on its condition. -/
theorem crneCallsExactlyWhenDifferent : Obligations.CrneCallsExactlyWhenDifferent := by
  refine ⟨longForm_of_row .CRNE rfl rfl, fun a b addr s => ?_⟩
  have hcall := callIf_frame (!s.pastL.regsEqual a b) addr s
  simp only [Bool.not_eq_true', ← Bool.not_eq_true, regsEqual_iff, pastL_reg, not_not] at hcall
  exact hcall

/-- Settles O40: RET goes to the address that the taken call saved. -/
theorem retAfterACallGoesPastTheCall : Obligations.RetAfterACallGoesPastTheCall := by
  intro i s t u hcall h hrp
  obtain ⟨addr, -, hto⟩ := exec_takenCall hcall
  cases hto.symm.trans h
  exact ⟨u.setIp u.rp, rfl, ipPast_of_ip_eq hrp⟩

end Sys2Proof.Machine
end

section
/-! PROOFS. What a step does not look at: `Unseen` says once which parts of a state an instruction reads and that the
rest is carried along, and `exec_of_unseen` ties it to `exec`. The output, the input behind the first event, the cell
behind the port and an unread register are the four changes it is used for. -/

namespace Sys2Proof.Machine

open Sys2Proof.Claims

/-! ### A change of the state that an instruction carries along -/

/-- The change `g` of a state leaves alone what the instruction `i` reads in `s`, adds `more` to the end of the input,
and goes past every update the instruction makes. `exec_of_unseen` uses it. -/
structure Unseen (g : State → State) (more : List InputEvent) (s : State) (i : Instr) : Prop where
  ip : (g s).ip = s.ip
  rp : (g s).rp = s.rp
  reg : ∀ r ∈ readRegs i, (g s).reg r = s.reg r
  cell : ∀ addr ≠ Config.devAddr, (g s).cell addr = s.cell addr
  input : (g s).input = s.input ++ more
  /-- A read that waits is not to be given an event. -/
  waits : s.input = [] → more = []
  setIp : ∀ u a, g (u.setIp a) = (g u).setIp a
  setRp : ∀ u a, g (u.setRp a) = (g u).setRp a
  setHalted : ∀ u, g u.setHalted = (g u).setHalted
  withInput : ∀ u rest, g (u.withInput rest) = (g u).withInput (rest ++ more)
  emit : ∀ u b, g (u.emit b) = (g u).emit b
  setReg : ∀ u a v, writtenReg i = some a → g (u.setReg a v) = (g u).setReg a v
  setCell : ∀ addr ≠ Config.devAddr, ∀ v, g (s.pastL.setCell addr v) = (g s.pastL).setCell addr v

section
variable {g : State → State} {more : List InputEvent} {s : State} {i : Instr} (h : Unseen g more s i)
include h

theorem Unseen.advance_comm (n : Nat) : (g s).advance n = g (s.advance n) := by
  rw [State.advance, State.advance, h.ip, h.setIp]

theorem Unseen.pastS_comm : (g s).pastS = g s.pastS := h.advance_comm 1

theorem Unseen.pastL_comm : (g s).pastL = g s.pastL := h.advance_comm 3

theorem Unseen.regsEqual_comm {a b : Reg} (ha : a ∈ readRegs i) (hb : b ∈ readRegs i) :
    (g s).pastL.regsEqual a b = s.pastL.regsEqual a b := by
  simp [State.regsEqual, h.reg a ha, h.reg b hb]

theorem Unseen.updateReg_comm {a : Reg} (f : Byte → Byte) (ha : a ∈ readRegs i) (hw : writtenReg i = some a) :
    updateReg a f (g s) = mapNext g (updateReg a f s) := by
  rw [updateReg_eq, updateReg_eq, mapNext, h.reg a ha, h.setReg _ _ _ hw, h.pastS_comm]

theorem Unseen.combineRegs_comm {a b : Reg} (f : Byte → Byte → Byte) (ha : a ∈ readRegs i) (hb : b ∈ readRegs i)
    (hw : writtenReg i = some a) : combineRegs a b f (g s) = mapNext g (combineRegs a b f s) := by
  rw [combineRegs_eq, combineRegs_eq, mapNext, h.reg a ha, h.reg b hb, h.setReg _ _ _ hw, h.pastS_comm]

theorem Unseen.branchIf_comm (c : Bool) (addr : Word) :
    branchIf c addr (g s) = mapNext g (branchIf c addr s) := by
  rw [branchIf_eq, branchIf_eq, mapNext, h.ip, h.setIp]

theorem Unseen.callIf_comm (c : Bool) (addr : Word) : callIf c addr (g s) = mapNext g (callIf c addr s) := by
  rw [callIf_eq, callIf_eq, mapNext, h.ip]
  cases c with
  | true => rw [if_pos rfl, if_pos rfl, h.setIp, h.setRp]
  | false => exact congrArg _ (h.setIp s _).symm

theorem Unseen.execLoad_port_comm {a : Reg} (hw : writtenReg i = some a) :
    execLoad a Config.devAddr (g s) = mapNext g (execLoad a Config.devAddr s) := by
  have hinput := h.input
  rcases memRead_device s with ⟨hin, -⟩ | ⟨rest, hin, -⟩ | ⟨e, b, rest, hin, hb, -⟩
  · rw [hin, h.waits hin] at hinput
    rw [execLoad_waiting hin, execLoad_waiting hinput, mapNext]
  · rw [hin] at hinput
    rw [execLoad_abort hin, execLoad_abort hinput, mapNext]
  · rw [hin] at hinput
    have hfrom : execLoad a Config.devAddr s = .next (((s.pastL.withInput rest).emit b).setReg a b) :=
      execLoad_event hin hb
    have hfromg : execLoad a Config.devAddr (g s) =
        .next ((((g s).pastL.withInput (rest ++ more)).emit b).setReg a b) := execLoad_event hinput hb
    rw [hfrom, hfromg, mapNext, h.setReg _ _ _ hw, h.emit, h.withInput, h.pastL_comm]

theorem Unseen.execLoad_comm {a : Reg} (addr : Word) (hw : writtenReg i = some a) :
    execLoad a addr (g s) = mapNext g (execLoad a addr s) := by
  by_cases haddr : addr = Config.devAddr
  · rw [haddr]
    exact h.execLoad_port_comm hw
  · rw [execLoad_storage _ haddr, execLoad_storage _ haddr, mapNext, h.setReg _ _ _ hw, h.cell addr haddr,
      h.pastL_comm]

theorem Unseen.execStor_comm {a : Reg} (addr : Word) (ha : a ∈ readRegs i) :
    execStor a addr (g s) = mapNext g (execStor a addr s) := by
  rw [execStor_eq, execStor_eq, mapNext, h.reg a ha, h.pastL_comm]
  by_cases haddr : addr = Config.devAddr
  · rw [if_pos haddr, if_pos haddr, h.emit]
  · rw [if_neg haddr, if_neg haddr, h.setCell addr haddr]

/-- An instruction does the same with the change made, and carries it along. -/
theorem exec_of_unseen : exec i (g s) = mapNext g (exec i s) := by
  cases i with
  | halt =>
    rw [exec, exec, execHalt, execHalt, mapNext, h.setHalted, h.pastS_comm]
  | ret =>
    rw [exec, exec, execRet, execRet, mapNext, h.setIp, ← h.pastS_comm, pastS_rp, pastS_rp, h.rp]
  | shl a | shr a | rol a | ror a => exact h.updateReg_comm _ List.mem_cons_self rfl
  | nand a b | and a b | or a b | xor a b =>
    exact h.combineRegs_comm _ List.mem_cons_self (List.mem_cons_of_mem a List.mem_cons_self) rfl
  | load a addr => exact h.execLoad_comm addr rfl
  | stor a addr => exact h.execStor_comm addr List.mem_cons_self
  | breq a b addr | brne a b addr =>
    simp only [exec, execBreq, execBrne,
      h.regsEqual_comm List.mem_cons_self (List.mem_cons_of_mem a List.mem_cons_self)]
    exact h.branchIf_comm _ addr
  | creq a b addr | crne a b addr =>
    simp only [exec, execCreq, execCrne,
      h.regsEqual_comm List.mem_cons_self (List.mem_cons_of_mem a List.mem_cons_self)]
    exact h.callIf_comm _ addr

end

/-- A step does the same with the change made, when it is unseen by every instruction and by the fetch. -/
theorem step_of_unseen {g : State → State} {more : List InputEvent} {s : State} (hhalted : (g s).halted = s.halted)
    (hbytes : (g s).instrBytes = s.instrBytes) (h : ∀ i, Unseen g more s i) : step (g s) = mapNext g (step s) := by
  cases hh : s.halted with
  | true => rw [step_halted hh, step_halted (hhalted.trans hh), mapNext]
  | false =>
    obtain ⟨i, hcur, -, hstep⟩ := step_current hh
    rw [hstep, step_eq_exec ((current?_congr hhalted hbytes).trans hcur), exec_of_unseen (h i)]

/-! ### Another value in a register -/

theorem setReg_setReg (s : State) (r : Reg) (v w : Byte) : (s.setReg r v).setReg r w = s.setReg r w := by
  cases r <;> rfl

theorem setReg_comm (s : State) {a r : Reg} (har : a ≠ r) (x v : Byte) :
    (s.setReg a x).setReg r v = (s.setReg r v).setReg a x := by
  refine State.ext_reg _ _ (fun q => ?_) ?_ ?_ ?_ ?_ ?_ ?_
  · by_cases hqr : q = r
    · subst hqr
      rw [setReg_reg_same, setReg_reg_other _ _ _ _ har.symm, setReg_reg_same]
    · rw [setReg_reg_other _ _ _ _ hqr]
      by_cases hqa : q = a
      · rw [hqa, setReg_reg_same, setReg_reg_same]
      · rw [setReg_reg_other _ _ _ _ hqa, setReg_reg_other _ _ _ _ hqa, setReg_reg_other _ _ _ _ hqr]
  all_goals simp

theorem unseen_setReg {r : Reg} {i : Instr} (s : State) (v : Byte) (hread : r ∉ readRegs i)
    (hwritten : writtenReg i ≠ some r) : Unseen (·.setReg r v) [] s i where
  ip := setReg_ip s r v
  rp := setReg_rp s r v
  reg q hq := setReg_reg_other s r q v fun e => hread (e ▸ hq)
  cell addr _ := setReg_cell s r v addr
  input := by simp
  waits _ := rfl
  setIp u a := by cases r <;> rfl
  setRp u a := by cases r <;> rfl
  setHalted u := by cases r <;> rfl
  withInput u rest := by cases r <;> simp [State.withInput, State.setReg]
  emit u b := by cases r <;> rfl
  setReg u a x hw := setReg_comm u (fun e => hwritten (hw.trans (congrArg some e))) x v
  setCell addr _ x := by cases r <;> rfl

/-- The one form that writes a register it does not read is LOAD. -/
theorem load_of_written_unread {i : Instr} {r : Reg} (hread : r ∉ readRegs i) (hwritten : writtenReg i = some r) :
    ∃ addr, i = .load r addr := by
  cases i with
  | load a addr =>
    cases hwritten
    exact ⟨addr, rfl⟩
  | shl a | shr a | rol a | ror a | nand a b | and a b | or a b | xor a b =>
    cases hwritten
    exact absurd List.mem_cons_self hread
  | _ => cases hwritten

/-- A LOAD that happens overwrites its register. -/
theorem execLoad_setReg {r : Reg} {addr : Word} {s : State} (v : Byte)
    (hwait : ¬(readsPort (.load r addr) = true ∧ s.input = [])) :
    execLoad r addr (s.setReg r v) = execLoad r addr s := by
  have hpast (x : Byte) : (s.setReg r v).pastL.setReg r x = s.pastL.setReg r x := by cases r <;> rfl
  by_cases haddr : addr = Config.devAddr
  · subst haddr
    have hinput := setReg_input s r v
    rcases memRead_device s with ⟨hin, -⟩ | ⟨rest, hin, -⟩ | ⟨e, b, rest, hin, hb, -⟩
    · exact absurd ⟨readsPort_iff.mpr ⟨r, rfl⟩, hin⟩ hwait
    · rw [execLoad_abort hin, execLoad_abort (hinput.trans hin)]
    · rw [execLoad_event hin hb, execLoad_event (hinput.trans hin) hb]
      cases r <;> rfl
  · rw [execLoad_storage _ haddr, execLoad_storage _ haddr, setReg_cell, hpast]

/-- Settles O42: an unread register is unseen when it is not written either; when it is, the instruction is a LOAD. -/
theorem unreadRegistersHaveNoInfluence : Obligations.UnreadRegistersHaveNoInfluence := by
  intro i s r v hread
  refine ⟨fun hwritten => exec_of_unseen (unseen_setReg s v hread hwritten), fun hwritten hwait => ?_⟩
  obtain ⟨addr, rfl⟩ := load_of_written_unread hread hwritten
  exact execLoad_setReg v hwait

/-! ### Other streams -/

/-- Other bytes emitted before; `outputIsNeverReadBack` is about it. -/
def State.withOutputBefore (before : List Byte) (s : State) : State :=
  { s with output := before ++ s.output }

/-- More events behind the input; `unreadInputHasNoEffect` is about it. -/
def State.withInputBehind (more : List InputEvent) (s : State) : State :=
  { s with input := s.input ++ more }

theorem unseen_withOutputBefore (before : List Byte) (s : State) (i : Instr) :
    Unseen (State.withOutputBefore before) [] s i where
  ip := rfl
  rp := rfl
  reg r _ := by cases r <;> rfl
  cell _ _ := rfl
  input := (List.append_nil _).symm
  waits _ := rfl
  setIp _ _ := rfl
  setRp _ _ := rfl
  setHalted _ := rfl
  withInput u rest := by rw [List.append_nil]; rfl
  emit u b := by simp [State.withOutputBefore, State.emit]
  setReg u a v _ := by cases a <;> rfl
  setCell _ _ _ := rfl

theorem unseen_withInputBehind {more : List InputEvent} {s : State} (hin : s.input ≠ []) (i : Instr) :
    Unseen (State.withInputBehind more) more s i where
  ip := rfl
  rp := rfl
  reg r _ := by cases r <;> rfl
  cell _ _ := rfl
  input := rfl
  waits h := absurd h hin
  setIp _ _ := rfl
  setRp _ _ := rfl
  setHalted _ := rfl
  withInput _ _ := rfl
  emit _ _ := rfl
  setReg u a v _ := by cases a <;> rfl
  setCell _ _ _ := rfl

/-- Settles O48: the output before is unseen, and the fetch does not reach it. -/
theorem outputIsNeverReadBack : Obligations.OutputIsNeverReadBack :=
  fun s before => step_of_unseen (g := State.withOutputBefore before) rfl (instrBytes_congr rfl fun _ _ => rfl)
    (unseen_withOutputBefore before s)

/-- Settles O49: the events behind are unseen, and the fetch does not reach them. -/
theorem unreadInputHasNoEffect : Obligations.UnreadInputHasNoEffect :=
  fun _ more hin => step_of_unseen (g := State.withInputBehind more) rfl (instrBytes_congr rfl fun _ _ => rfl)
    (unseen_withInputBehind hin)

/-! ### Another byte behind the port -/

theorem Memory.write_comm {m : Memory} {a b : Nat} (h : Memory.wf m) (ha : a < Config.memSize) (hb : b < Config.memSize)
    (hab : a ≠ b) (v w : Byte) :
    Memory.write (Memory.write m a v) b w = Memory.write (Memory.write m b w) a v := by
  have hwa := Memory.write_wf h a v ha
  have hwb := Memory.write_wf h b w hb
  refine Memory.eq_of_read_eq (Memory.write_wf hwa b w hb) (Memory.write_wf hwb a v ha) fun x _ => ?_
  by_cases hxa : x = a
  · rw [hxa, Memory.read_write_other hwa w hab, Memory.read_write_same h, Memory.read_write_same hwb]
  · rw [Memory.read_write_other hwb v hxa]
    by_cases hxb : x = b
    · rw [hxb, Memory.read_write_same hwa, Memory.read_write_same h]
    · rw [Memory.read_write_other hwa w hxb, Memory.read_write_other h v hxa, Memory.read_write_other h w hxb]

theorem setCell_comm {s : State} (h : s.mem.wf) {a b : Word} (hab : a ≠ b) (v w : Byte) :
    (s.setCell a v).setCell b w = (s.setCell b w).setCell a v :=
  congrArg (fun m => { s with mem := m }) (Memory.write_comm h (Word.toNat_lt_memSize a) (Word.toNat_lt_memSize b)
    (fun e => hab (BitVec.eq_of_toNat_eq e)) v w)

theorem unseen_setCell_port {s : State} (h : s.mem.wf) (v : Byte) (i : Instr) :
    Unseen (·.setCell Config.devAddr v) [] s i where
  ip := rfl
  rp := rfl
  reg r _ := setCell_reg s _ v r
  cell _ haddr := setCell_cell_other h v haddr
  input := (List.append_nil _).symm
  waits _ := rfl
  setIp _ _ := rfl
  setRp _ _ := rfl
  setHalted _ := rfl
  withInput u rest := by rw [List.append_nil]; rfl
  emit _ _ := rfl
  setReg u a x _ := by cases a <;> rfl
  setCell _ haddr x := setCell_comm (s := s.pastL) h haddr x v

/-- Settles O50: the cell is unseen, and the fetch does not reach it by hypothesis. -/
theorem cellBehindThePortIsInvisible : Obligations.CellBehindThePortIsInvisible :=
  fun _ v hwf hfetch => step_of_unseen (g := (·.setCell Config.devAddr v)) rfl
    (instrBytes_congr rfl fun k hk => setCell_cell_other hwf v (hfetch k hk)) (unseen_setCell_port hwf v)

end Sys2Proof.Machine
end

section
/-! PROOFS. Load, launch and the driver (`20_memory.md` R43, `70_reset_and_hazards.md` R121, R123, R128): where an image
goes, and what holds of every session a run can reach. -/

namespace Sys2Proof.Machine

open Sys2Proof.Claims

/-! ### Image load -/

/-- Cell `x` of a loaded memory, the image placed from cell `k` up. -/
theorem Memory.read_loadAt {m : Memory} (h : Memory.wf m) (data : List Byte) (k x : Nat)
    (hk : k + data.length ≤ Config.memSize) :
    Memory.read (Memory.loadAt k data m) x = if x < k then Memory.read m x else data.getD (x - k) (Memory.read m x) := by
  induction data generalizing k with
  | nil => simp [Memory.loadAt]
  | cons b bs ih =>
    rw [List.length_cons] at hk
    have hwf := Memory.loadAt_wf h bs (k + 1) (by omega)
    rw [Memory.loadAt]
    obtain hlt | rfl | hgt := Nat.lt_trichotomy x k
    · rw [Memory.read_write_other hwf b (by omega), ih (k + 1) (by omega), if_pos (by omega), if_pos hlt]
    · rw [Memory.read_write_same hwf, if_neg (by omega), Nat.sub_self, List.getD_cons_zero]
    · have hoffset : x - k = (x - (k + 1)) + 1 := by omega
      rw [Memory.read_write_other hwf b (by omega), ih (k + 1) (by omega), if_neg (by omega), if_neg (by omega),
        hoffset, List.getD_cons_succ]

/-- What `load` of an image that fits leaves: the image in the cells, and all else as it was. -/
theorem load_frame {s : State} (hwf : s.mem.wf) {data : List Byte} (hfits : data.length ≤ 65536) :
    ∃ t, s.load data = .next t ∧ t.mem.wf ∧ (∀ x : Word, t.cell x = data.getD x.toNat (s.cell x)) ∧
      SameRegs s t ∧ t.ip = s.ip ∧ t.rp = s.rp ∧ t.halted = s.halted ∧ SameStreams s t := by
  have hroom : 0 + data.length ≤ Config.memSize := (Nat.zero_add _).symm ▸ hfits
  exact ⟨_, load_fits s hfits, Memory.loadAt_wf hwf data 0 hroom,
    fun x => (Memory.read_loadAt hwf data 0 x.toNat hroom).trans (if_neg (Nat.not_lt_zero _)),
    fun r => by cases r <;> rfl, rfl, rfl, rfl, rfl, rfl⟩

/-- Settles O54: the two outcomes of `load`, by the length of the image. -/
theorem loadPlacesTheImage : Obligations.LoadPlacesTheImage :=
  fun s _ hwf => ⟨load_frame hwf, load_too_long s⟩

/-- Settles O55: the frame of `load`, from the reset state with its input. -/
theorem launchStateIsDetermined : Obligations.LaunchStateIsDetermined := by
  intro image input hfits
  obtain ⟨t, ht, -, hcell, hregs, hip, hrp, hhalted, hin, hout⟩ :=
    load_frame (s := State.reset.withInput input) Memory.wf_nil hfits
  exact ⟨t, ht, fun r => (hregs r).trans ((withInput_reg _ _ r).trans (reset_reg r)), hip, hrp, hhalted, hcell, hout,
    hin⟩

/-! ### The moves -/

theorem move_step_live (p : Phase) (s : State) : Session.move .step (.live p s) = afterOutcome s (step s) := by
  cases p <;> rfl

theorem move_load_built (s : State) (data : List Byte) :
    Session.move (.load data) (.live .built s) = afterOutcome s (s.load data) := rfl

/-- Settles O59: the one fatal cause of a step takes the first event of the input. -/
theorem fatalStepEmitsNothing : Obligations.FatalStepEmitsNothing := by
  intro p s c h
  obtain ⟨rfl, -⟩ := step_fault_iff.mp h
  rw [move_step_live, h]
  rfl

/-- An outcome that is no refusal is a move. -/
theorem afterOutcome_isSome (s : State) {r : Result} (h : ∀ c, r ≠ .refused c) :
    (afterOutcome s r).isSome = true := by
  cases r with
  | refused c => exact absurd rfl (h c)
  | _ => rfl

theorem load_not_refused (s : State) (data : List Byte) (c : Refusal) : s.load data ≠ .refused c := by
  by_cases h : data.length ≤ 65536
  · rw [load_fits s h]
    exact nofun
  · rw [load_too_long s (by omega)]
    exact nofun

/-- Settles O58: each allowed operation by its arm of `Session.move`; no step and no load is refused. -/
theorem allowedHostOperationsAreMoves : Obligations.AllowedHostOperationsAreMoves := by
  intro x
  refine ⟨?_, ?_, ?_⟩
  · cases x <;> rfl
  · rintro p s rfl
    exact ⟨afterOutcome_isSome s (step_not_refused s), fun _ => rfl⟩
  · rintro s data rfl
    rw [move_load_built]
    obtain ⟨y, hy⟩ := Option.isSome_iff_exists.mp (afterOutcome_isSome s (load_not_refused s data))
    refine ⟨y, hy, fun hfits => ?_⟩
    rw [load_fits s hfits] at hy
    exact ⟨_, (Option.some.inj hy).symm⟩

/-! ### Every reachable session -/

/-- The invariant of a session: a live core has a canonical memory, and a fatal end has one of two causes.
`move_keeps_sound` ties it to the moves. -/
def Session.Sound : Session → Prop
  | .live _ s => CanonicalState s
  | .fatal c _ _ => c = .loadError ∨ c = .deviceErrorInputAbort

theorem afterOutcome_sound {s : State} {r : Result} {y : Session} (hnext : ∀ t, r = .next t → CanonicalState t)
    (hfault : ∀ c, r = .fault c → c = .loadError ∨ c = .deviceErrorInputAbort) (h : afterOutcome s r = some y) :
    y.Sound := by
  cases r with
  | next t =>
    cases h
    exact hnext t rfl
  | fault c =>
    cases h
    exact hfault c rfl
  | refused c => cases h

theorem afterStep_sound {s : State} {y : Session} (hwf : CanonicalState s) (h : afterOutcome s (step s) = some y) :
    y.Sound :=
  afterOutcome_sound (fun t ht => stepKeepsMemoryCanonical s t hwf ht) (fun _ hc => .inr (step_fault_iff.mp hc).1) h

theorem afterLoad_sound {s : State} {data : List Byte} {y : Session} (hwf : CanonicalState s)
    (h : afterOutcome s (s.load data) = some y) : y.Sound := by
  by_cases hfits : data.length ≤ 65536
  · obtain ⟨t, ht, hcanon, -⟩ := load_frame hwf hfits
    rw [ht] at h
    cases h
    exact hcanon
  · rw [load_too_long s (by omega)] at h
    cases h
    exact .inl rfl

theorem move_keeps_sound {op : HostOp} {x y : Session} (hx : x.Sound) (h : Session.move op x = some y) : y.Sound := by
  cases x with
  | fatal c input output =>
    cases op with
    | reset =>
      cases h
      exact Memory.wf_nil
    | _ => cases h
  | live p s =>
    cases op with
    | reset =>
      cases h
      exact Memory.wf_nil
    | load data =>
      cases p with
      | built => exact afterLoad_sound hx ((move_load_built s data).symm.trans h)
      | started => cases h
    | step => exact afterStep_sound hx ((move_step_live p s).symm.trans h)
    | deliver e =>
      cases h
      exact hx

theorem reachable_sound {x : Session} (h : Reachable x) : x.Sound := by
  induction h with
  | start => exact Memory.wf_nil
  | move op _ hmove ih => exact move_keeps_sound ih hmove

/-- Only `reset` is a move after a fatal end (R102). -/
theorem eq_reset_of_move_fatal {c : Fault} {input : List InputEvent} {output : List Byte} {op : HostOp} {y : Session}
    (h : Session.move op (.fatal c input output) = some y) : op = .reset := by
  cases op with
  | reset => rfl
  | _ => cases h

/-- Settles O57: the invariant of every reachable session, and the arms of `Session.move` that are no move. -/
theorem everyReachableSessionKeepsTheContract : Obligations.EveryReachableSessionKeepsTheContract := by
  intro x hx
  have hsound := reachable_sound hx
  refine ⟨?_, ?_, ?_⟩
  · rintro p s rfl
    exact hsound
  · rintro c input output rfl
    exact ⟨hsound, fun _ _ => eq_reset_of_move_fatal⟩
  · rintro s data rfl
    rfl

end Sys2Proof.Machine
end
